-- ==== Sys2Proof/Word.lean ====
section
/-! DEFINITION. The widths of the data model (spec/00_scope.md R13, R14): all values unsigned, bit 0 least significant. -/

namespace Sys2Proof

/-- An input byte, a frame field or a payload entry: 8 bits. -/
abbrev Byte := BitVec 8

/-- `ss.address`, `ss.count`, `ss.value`: 16 bits. -/
abbrev Half := BitVec 16

/-- A position in the offset domain: 64 bits, dimensionless (spec/00_scope.md R12). -/
abbrev Offset := BitVec 64

/-- The code held by a unit's state register: 3 bits (spec/10_state.md R21, R40). -/
abbrev StateCode := BitVec 3

/-- A dispatch word `rst, in_valid, hit or g, state[2:0]`: 6 bits (spec/30_encoding.md R88, R89). -/
abbrev DispatchWord := BitVec 6

end Sys2Proof
end

