-- ==== Sys2Proof/Config.lean ====
section
/-! DEFINITION. The five tunable constants (spec/00_scope.md R7 to R11) and the one free value. -/

namespace Sys2Proof

/-- The configuration constants: fixed for the life of a run, written by no operation
(spec/10_state.md R54, decision D26). Notes/assumptions/6. -/
structure Config where
  /-- `SYNC_BYTE` (R7); any value is legal. -/
  syncByte : Byte
  /-- `SYNC_RUN_LEN` (R8); legal range 1..255, so 0 is the one illegal value of the field (log 7). -/
  syncRunLen : BitVec 8
  /-- `ESC_ADDR` (R9); any value is legal. -/
  escAddr : Half
  /-- `GAP_RESET_THRESHOLD` (R10); any value is legal. -/
  gapResetThreshold : Offset
  /-- `GAP_NOISE_CEILING` (R11); any value is legal. -/
  gapNoiseCeiling : Offset
  deriving DecidableEq, Repr

/-- The defaults of R7 to R11, which R54 calls the constants' reset values. -/
def Config.defaults : Config where
  syncByte := 0x55#8
  syncRunLen := 4#8
  escAddr := 0x5555#16
  gapResetThreshold := 300#64
  gapNoiseCeiling := 5000#64

/-- `SYNC_RUN_LEN` lies in its legal range 1..255 (R8); outside it nothing is modelled
(spec/93_implementation_defined.md U15). -/
def Config.runLenLegal (c : Config) : Bool := c.syncRunLen != 0#8

/-- FREE VALUE (log 9): what entry `i` of the payload buffer holds while nothing has written it. The spec calls it
unspecified, any value (spec/20_memory.md R62, spec/93_implementation_defined.md U2). -/
opaque Config.plUnwritten : Nat → Byte

end Sys2Proof
end

