-- ==== Sys2Proof/Syntax.lean ====
section
/-! DEFINITION. Beats and the 21 operations of spec/opcode_table.json. -/

namespace Sys2Proof

/-- The two units (spec/00_scope.md R1). -/
inductive UnitId
  | ss
  | fb
  deriving DecidableEq, Repr

/-- One input beat: the byte and its start and end offsets (spec/30_encoding.md R80). -/
structure Beat where
  byte : Byte
  ss : Offset
  es : Offset
  deriving DecidableEq, Repr

/-- The operations, one constructor per row of spec/opcode_table.json (spec/30_encoding.md R88, R89). A row's
don't-care dispatch bits are operands (`inValid`, `hit` or `g`, `code` for `state[2:0]`); an operation that consumes
a beat carries it as its operand `b`. -/
inductive Instr
  | ssReset (inValid hit : Bool) (code : StateCode)
  | ssNop (hit : Bool) (code : StateCode)
  | ssSync (code : StateCode) (b : Beat)
  | ssIdle (b : Beat)
  | ssAddrLo (b : Beat)
  | ssAddrHi (b : Beat)
  | ssCntLo (b : Beat)
  | ssCntHi (b : Beat)
  | ssDataLo (b : Beat)
  | ssDataHi (b : Beat)
  | ssIllegal (b : Beat)
  | fbReset (inValid g : Bool) (code : StateCode)
  | fbNop (g : Bool) (code : StateCode)
  | fbGapAddr (code : StateCode) (b : Beat)
  | fbAddr (b : Beat)
  | fbMsgType (b : Beat)
  | fbDataLen (b : Beat)
  | fbPayload (b : Beat)
  | fbWaitData (b : Beat)
  | fbChecksum (b : Beat)
  | fbIllegal (code : StateCode) (b : Beat)
  deriving DecidableEq, Repr

/-- The mnemonic of the operation's row, as spec/opcode_table.json spells it. -/
def Instr.mnemonic : Instr → String
  | .ssReset _ _ _ => "SS.RESET"
  | .ssNop _ _ => "SS.NOP"
  | .ssSync _ _ => "SS.SYNC"
  | .ssIdle _ => "SS.IDLE"
  | .ssAddrLo _ => "SS.ADDR_LO"
  | .ssAddrHi _ => "SS.ADDR_HI"
  | .ssCntLo _ => "SS.CNT_LO"
  | .ssCntHi _ => "SS.CNT_HI"
  | .ssDataLo _ => "SS.DATA_LO"
  | .ssDataHi _ => "SS.DATA_HI"
  | .ssIllegal _ => "SS.ILLEGAL"
  | .fbReset _ _ _ => "FB.RESET"
  | .fbNop _ _ => "FB.NOP"
  | .fbGapAddr _ _ => "FB.GAP_ADDR"
  | .fbAddr _ => "FB.ADDR"
  | .fbMsgType _ => "FB.MSGTYPE"
  | .fbDataLen _ => "FB.DATALEN"
  | .fbPayload _ => "FB.PAYLOAD"
  | .fbWaitData _ => "FB.WAIT_DATA"
  | .fbChecksum _ => "FB.CHECKSUM"
  | .fbIllegal _ _ => "FB.ILLEGAL"

end Sys2Proof
end

