-- ==== Sys2Proof/WellFormed.lean ====
section
/-! DEFINITION. Which instruction terms stand for a dispatch word of the tables. -/

namespace Sys2Proof

/-- The row `FB.ILLEGAL` fixes bits 2:1 of the state code to `11` (match `0x16`, mask `0x3E`: codes 6 and 7,
spec/30_encoding.md R89). Every other operand is free over its width. -/
def Instr.wellFormed : Instr → Bool
  | .fbIllegal code _ => code.extractLsb' 1 2 == 3#2
  | .ssReset _ _ _ => true
  | .ssNop _ _ => true
  | .ssSync _ _ => true
  | .ssIdle _ => true
  | .ssAddrLo _ => true
  | .ssAddrHi _ => true
  | .ssCntLo _ => true
  | .ssCntHi _ => true
  | .ssDataLo _ => true
  | .ssDataHi _ => true
  | .ssIllegal _ => true
  | .fbReset _ _ _ => true
  | .fbNop _ _ => true
  | .fbGapAddr _ _ => true
  | .fbAddr _ => true
  | .fbMsgType _ => true
  | .fbDataLen _ => true
  | .fbPayload _ => true
  | .fbWaitData _ => true
  | .fbChecksum _ => true

end Sys2Proof
end

