-- ==== Sys2Proof/Decode.lean ====
section
/-! DEFINITION. State codes, the dispatch word, the decoder and the encoder.

The spec encodes an operation in the 6-bit dispatch word of its unit (spec/30_encoding.md R88, R89). The same 64 words
serve both units, so the model writes an instruction as bytes of its own layout (DESIGN CHOICE, log 4): a header byte
(bit 7 zero, bit 6 the unit: 0 for SS, 1 for FB, bits 5:0 the dispatch word), then, for a row that consumes a beat, the
17 bytes of the beat: the byte, the start offset and the end offset, offsets low byte first. -/

namespace Sys2Proof

/-! ## State codes (spec/10_state.md R21, R40) -/

abbrev SsCode.awaitSync : StateCode := 0#3
abbrev SsCode.addrLow : StateCode := 1#3
abbrev SsCode.addrHigh : StateCode := 2#3
abbrev SsCode.countLow : StateCode := 3#3
abbrev SsCode.countHigh : StateCode := 4#3
abbrev SsCode.dataLow : StateCode := 5#3
abbrev SsCode.dataHigh : StateCode := 6#3
/-- Code 7, which no rule writes (spec/30_encoding.md R96). -/
abbrev SsCode.unused : StateCode := 7#3

abbrev FbCode.sync : StateCode := 0#3
abbrev FbCode.waitAddress : StateCode := 1#3
abbrev FbCode.waitMsgType : StateCode := 2#3
abbrev FbCode.waitDataLength : StateCode := 3#3
/-- The reserved state `WAIT_DATA` (spec/30_encoding.md R95). -/
abbrev FbCode.waitData : StateCode := 4#3
abbrev FbCode.waitChecksum : StateCode := 5#3

/-! ## The dispatch word -/

/-- `{rst, in_valid, hit or g, state[2:0]}` (spec/30_encoding.md R88, R89). -/
def packDispatch (rst inValid sel : Bool) (code : StateCode) : DispatchWord :=
  BitVec.ofBool rst ++ BitVec.ofBool inValid ++ BitVec.ofBool sel ++ code

/-- Bit 5. -/
def dispatchRst (k : DispatchWord) : Bool := k.getLsbD 5

/-- Bit 4. -/
def dispatchInValid (k : DispatchWord) : Bool := k.getLsbD 4

/-- Bit 3: `hit` in unit SS, `g` in unit FB. -/
def dispatchSel (k : DispatchWord) : Bool := k.getLsbD 3

/-- Bits 2:0. -/
def dispatchCode (k : DispatchWord) : StateCode := k.extractLsb' 0 3

/-- The cycle consumes a beat: `rst = 0`, `in_valid = 1`. -/
def dispatchHasBeat (k : DispatchWord) : Bool := !dispatchRst k && dispatchInValid k

/-! ## The tables of R88 and R89 -/

/-- One row of a dispatch table: the words `k` with `k &&& mask = pattern`. -/
structure OpcodeRow where
  mnemonic : String
  pattern : DispatchWord
  mask : DispatchWord
  /-- The operation that the row's word and the beat stand for. -/
  build : DispatchWord → Beat → Instr

/-- `k` lies in the row. -/
def OpcodeRow.accepts (r : OpcodeRow) (k : DispatchWord) : Bool := k &&& r.mask == r.pattern

/-- The table of spec/30_encoding.md R88. -/
def ssRows : List OpcodeRow :=
  [ ⟨"SS.RESET", 0x20#6, 0x20#6, fun k _ => .ssReset (dispatchInValid k) (dispatchSel k) (dispatchCode k)⟩,
    ⟨"SS.NOP", 0x00#6, 0x30#6, fun k _ => .ssNop (dispatchSel k) (dispatchCode k)⟩,
    ⟨"SS.SYNC", 0x18#6, 0x38#6, fun k b => .ssSync (dispatchCode k) b⟩,
    ⟨"SS.IDLE", 0x10#6, 0x3F#6, fun _ b => .ssIdle b⟩,
    ⟨"SS.ADDR_LO", 0x11#6, 0x3F#6, fun _ b => .ssAddrLo b⟩,
    ⟨"SS.ADDR_HI", 0x12#6, 0x3F#6, fun _ b => .ssAddrHi b⟩,
    ⟨"SS.CNT_LO", 0x13#6, 0x3F#6, fun _ b => .ssCntLo b⟩,
    ⟨"SS.CNT_HI", 0x14#6, 0x3F#6, fun _ b => .ssCntHi b⟩,
    ⟨"SS.DATA_LO", 0x15#6, 0x3F#6, fun _ b => .ssDataLo b⟩,
    ⟨"SS.DATA_HI", 0x16#6, 0x3F#6, fun _ b => .ssDataHi b⟩,
    ⟨"SS.ILLEGAL", 0x17#6, 0x3F#6, fun _ b => .ssIllegal b⟩ ]

/-- The table of spec/30_encoding.md R89. -/
def fbRows : List OpcodeRow :=
  [ ⟨"FB.RESET", 0x20#6, 0x20#6, fun k _ => .fbReset (dispatchInValid k) (dispatchSel k) (dispatchCode k)⟩,
    ⟨"FB.NOP", 0x00#6, 0x30#6, fun k _ => .fbNop (dispatchSel k) (dispatchCode k)⟩,
    ⟨"FB.GAP_ADDR", 0x18#6, 0x38#6, fun k b => .fbGapAddr (dispatchCode k) b⟩,
    ⟨"FB.ADDR", 0x10#6, 0x3F#6, fun _ b => .fbAddr b⟩,
    ⟨"FB.MSGTYPE", 0x11#6, 0x3F#6, fun _ b => .fbMsgType b⟩,
    ⟨"FB.DATALEN", 0x12#6, 0x3F#6, fun _ b => .fbDataLen b⟩,
    ⟨"FB.PAYLOAD", 0x13#6, 0x3F#6, fun _ b => .fbPayload b⟩,
    ⟨"FB.WAIT_DATA", 0x14#6, 0x3F#6, fun _ b => .fbWaitData b⟩,
    ⟨"FB.CHECKSUM", 0x15#6, 0x3F#6, fun _ b => .fbChecksum b⟩,
    ⟨"FB.ILLEGAL", 0x16#6, 0x3E#6, fun k b => .fbIllegal (dispatchCode k) b⟩ ]

/-- The dispatch table of a unit. -/
def opcodeRows : UnitId → List OpcodeRow
  | .ss => ssRows
  | .fb => fbRows

/-- The row that a unit's dispatch word selects. -/
def findRow (u : UnitId) (k : DispatchWord) : Option OpcodeRow :=
  (opcodeRows u).find? (fun r => r.accepts k)

/-! ## Beats as bytes -/

/-- The eight bytes of an offset, low byte first. -/
def offsetBytes (o : Offset) : List Byte :=
  [o.extractLsb' 0 8, o.extractLsb' 8 8, o.extractLsb' 16 8, o.extractLsb' 24 8,
   o.extractLsb' 32 8, o.extractLsb' 40 8, o.extractLsb' 48 8, o.extractLsb' 56 8]

/-- The offset that eight bytes spell, low byte first. -/
def offsetOfBytes (b0 b1 b2 b3 b4 b5 b6 b7 : Byte) : Offset :=
  b7 ++ b6 ++ b5 ++ b4 ++ b3 ++ b2 ++ b1 ++ b0

/-- The 17 operand bytes of a beat. -/
def beatBytes (b : Beat) : List Byte := b.byte :: (offsetBytes b.ss ++ offsetBytes b.es)

/-- Reads an offset and answers the bytes after it. -/
def takeOffset : List Byte → Option (Offset × List Byte)
  | b0 :: b1 :: b2 :: b3 :: b4 :: b5 :: b6 :: b7 :: rest => some (offsetOfBytes b0 b1 b2 b3 b4 b5 b6 b7, rest)
  | _ => none

/-- Reads a beat and answers the bytes after it. -/
def takeBeat : List Byte → Option (Beat × List Byte)
  | [] => none
  | v :: rest =>
    match takeOffset rest with
    | none => none
    | some (s, rest) =>
      match takeOffset rest with
      | none => none
      | some (e, rest) => some (⟨v, s, e⟩, rest)

/-! ## The decoder -/

/-- Why the decoder rejects bytes. -/
inductive DecodeError
  /-- There is no header byte. -/
  | noHeader
  /-- Bit 7 of the header byte is 1. -/
  | reservedHeaderBit (header : Byte)
  /-- The row consumes a beat and fewer than 17 operand bytes follow. -/
  | truncatedBeat
  /-- No row of the unit's table accepts the dispatch word (never: the rows cover all 64 words, R88, R89). -/
  | noRow (unit : UnitId) (k : DispatchWord)
  deriving DecidableEq, Repr

/-- The header byte of an instruction. -/
def headerByte (u : UnitId) (k : DispatchWord) : Byte :=
  match u with
  | .ss => 0#2 ++ k
  | .fb => 1#2 ++ k

/-- Bit 6 of a header byte. -/
def headerUnit (h : Byte) : UnitId := if h.getLsbD 6 then .fb else .ss

/-- Bits 5:0 of a header byte. -/
def headerDispatch (h : Byte) : DispatchWord := h.extractLsb' 0 6

/-- The beat given to a row that consumes none; `OpcodeRow.build` does not read it there. -/
def noBeat : Beat := ⟨0#8, 0#64, 0#64⟩

/-- One instruction from the front of a byte list, with the bytes after it. -/
def decode : List Byte → Except DecodeError (Instr × List Byte)
  | [] => .error .noHeader
  | h :: rest =>
    if h.getLsbD 7 then .error (.reservedHeaderBit h)
    else
      let u := headerUnit h
      let k := headerDispatch h
      match findRow u k with
      | none => .error (.noRow u k)
      | some row =>
        if dispatchHasBeat k then
          match takeBeat rest with
          | none => .error .truncatedBeat
          | some (b, rest) => .ok (row.build k b, rest)
        else .ok (row.build k noBeat, rest)

/-! ## The encoder, from the "encoding" columns of R88 and R89 -/

/-- The unit an operation belongs to. -/
def Instr.unit : Instr → UnitId
  | .ssReset _ _ _ => .ss
  | .ssNop _ _ => .ss
  | .ssSync _ _ => .ss
  | .ssIdle _ => .ss
  | .ssAddrLo _ => .ss
  | .ssAddrHi _ => .ss
  | .ssCntLo _ => .ss
  | .ssCntHi _ => .ss
  | .ssDataLo _ => .ss
  | .ssDataHi _ => .ss
  | .ssIllegal _ => .ss
  | .fbReset _ _ _ => .fb
  | .fbNop _ _ => .fb
  | .fbGapAddr _ _ => .fb
  | .fbAddr _ => .fb
  | .fbMsgType _ => .fb
  | .fbDataLen _ => .fb
  | .fbPayload _ => .fb
  | .fbWaitData _ => .fb
  | .fbChecksum _ => .fb
  | .fbIllegal _ _ => .fb

/-- The operation's dispatch word. -/
def Instr.dispatch : Instr → DispatchWord
  | .ssReset inValid hit code => packDispatch true inValid hit code
  | .ssNop hit code => packDispatch false false hit code
  | .ssSync code _ => packDispatch false true true code
  | .ssIdle _ => packDispatch false true false SsCode.awaitSync
  | .ssAddrLo _ => packDispatch false true false SsCode.addrLow
  | .ssAddrHi _ => packDispatch false true false SsCode.addrHigh
  | .ssCntLo _ => packDispatch false true false SsCode.countLow
  | .ssCntHi _ => packDispatch false true false SsCode.countHigh
  | .ssDataLo _ => packDispatch false true false SsCode.dataLow
  | .ssDataHi _ => packDispatch false true false SsCode.dataHigh
  | .ssIllegal _ => packDispatch false true false SsCode.unused
  | .fbReset inValid g code => packDispatch true inValid g code
  | .fbNop g code => packDispatch false false g code
  | .fbGapAddr code _ => packDispatch false true true code
  | .fbAddr _ => packDispatch false true false FbCode.sync
  | .fbMsgType _ => packDispatch false true false FbCode.waitAddress
  | .fbDataLen _ => packDispatch false true false FbCode.waitMsgType
  | .fbPayload _ => packDispatch false true false FbCode.waitDataLength
  | .fbWaitData _ => packDispatch false true false FbCode.waitData
  | .fbChecksum _ => packDispatch false true false FbCode.waitChecksum
  | .fbIllegal code _ => packDispatch false true false code

/-- The beat an operation consumes, if it consumes one. -/
def Instr.beat? : Instr → Option Beat
  | .ssReset _ _ _ => none
  | .ssNop _ _ => none
  | .ssSync _ b => some b
  | .ssIdle b => some b
  | .ssAddrLo b => some b
  | .ssAddrHi b => some b
  | .ssCntLo b => some b
  | .ssCntHi b => some b
  | .ssDataLo b => some b
  | .ssDataHi b => some b
  | .ssIllegal b => some b
  | .fbReset _ _ _ => none
  | .fbNop _ _ => none
  | .fbGapAddr _ b => some b
  | .fbAddr b => some b
  | .fbMsgType b => some b
  | .fbDataLen b => some b
  | .fbPayload b => some b
  | .fbWaitData b => some b
  | .fbChecksum b => some b
  | .fbIllegal _ b => some b

/-- The bytes of an instruction. -/
def encode (i : Instr) : List Byte :=
  headerByte i.unit i.dispatch ::
    match i.beat? with
    | none => []
    | some b => beatBytes b

/-! ## The table's numbering -/

/-- The bytes of the longest instruction: the header and a beat. -/
def maxInstrBytes : Nat := 18

/-- The bytes of an instruction whose bits are `w`, bit 0 the least significant bit of the first byte; every bit from
`nbits` on is 0, up to the longest instruction. -/
def tableBytes (nbits w : Nat) : List Byte :=
  (List.range maxInstrBytes).map (fun j => BitVec.ofNat 8 ((w % 2 ^ nbits) / 2 ^ (8 * j)))

/-- The instruction the decoder reads from a table word. A bare 6-bit word has bit 6 zero and is read as unit SS's;
unit FB's row with the same word is read from `w + 64` (log 4). -/
def decodeTableWord (nbits w : Nat) : Option Instr :=
  match decode (tableBytes nbits w) with
  | .ok (i, _) => some i
  | .error _ => none

end Sys2Proof
end

