-- ==== Sys2Proof/Machine/State.lean ====
section
/-! DEFINITION. Events, diagnostics, the two units' contexts, the state of the machine, its reset, and the reasons a
step can stop. -/

namespace Sys2Proof.Machine

/-- An output event: kind, span and kind-specific fields (spec/30_encoding.md R85 to R87). `ss` and `es` are the
span. -/
inductive Event
  /-- `SyncEvent`. -/
  | ssSync (ss es : Offset)
  /-- Address-field event; `esc` is 1 when `address = ESC_ADDR`. -/
  | ssAddr (ss es : Offset) (address : Half) (esc : Bool)
  /-- Count-field event. -/
  | ssCount (ss es : Offset) (count : Half)
  /-- `WriteRecord`; `address` is the one before the increment. -/
  | ssWrite (ss es : Offset) (address value : Half)
  /-- `GapEvent`. -/
  | fbGap (ss es duration : Offset)
  /-- Address event. -/
  | fbAddr (ss es : Offset) (byte : Byte)
  /-- Message-type event. -/
  | fbMsgType (ss es : Offset) (byte : Byte)
  /-- Data-length event. -/
  | fbDataLen (ss es : Offset) (byte : Byte)
  /-- Payload-span event. -/
  | fbPayload (ss es : Offset) (length : Byte)
  /-- `BusFrame`, the payload by value (spec/20_memory.md R75). -/
  | fbFrame (ss es : Offset) (address msgType dataLength : Byte) (payload : List Byte) (checksum : Byte)
  deriving DecidableEq, Repr

/-- The diagnostics of spec/60_exceptions.md R171. -/
inductive Diag
  /-- `DG_ESCAPE` (R172). -/
  | escape
  /-- `DG_GAP_RESET` (R173). -/
  | gapReset
  /-- `DG_COUNT_UNDERRUN` (R174). -/
  | countUnderrun
  deriving DecidableEq, Repr

/-- What the host drives on one unit's input port at one rising clock edge (spec/30_encoding.md R81). -/
structure Drive where
  unit : UnitId
  rst : Bool
  inValid : Bool
  beat : Beat
  deriving DecidableEq, Repr

/-- The eight registers of unit SS (spec/10_state.md R20 to R28). -/
structure SsRegs where
  /-- `ss.state` (R21). -/
  state : StateCode
  /-- `ss.run` (R22): the low `runWidth` bits of this field are the register, whose width `SYNC_RUN_LEN` fixes
  (spec/00_scope.md R8); it is read by `ssRun` and written by `runOfNat` alone (log 8). -/
  run : BitVec 8
  /-- `ss.sync_start` (R23). -/
  syncStart : Offset
  /-- `ss.address` (R24). -/
  address : Half
  /-- `ss.count` (R25). -/
  count : Half
  /-- `ss.count_neg` (R26). -/
  countNeg : Bool
  /-- `ss.value` (R27). -/
  value : Half
  /-- `ss.field_start` (R28). -/
  fieldStart : Offset
  deriving DecidableEq, Repr

/-- Unit SS: its registers, its registered output ports and the record of what it has put out. -/
structure SsUnit where
  regs : SsRegs
  /-- The event port of spec/30_encoding.md R92: the event shown, `none` when `ev_valid = 0` (log 10). -/
  evPort : Option Event
  /-- The diagnostic port of R171: the code shown, `none` when `dg_valid = 0`. -/
  dgPort : Option Diag
  /-- MODEL's own: every event emitted so far, oldest first (spec/00_scope.md R16; log 11). -/
  events : List Event
  /-- MODEL's own: every diagnostic so far, oldest first (log 11). -/
  diags : List Diag
  deriving DecidableEq, Repr

/-- The ten registers of unit FB (spec/10_state.md R39 to R49). -/
structure FbRegs where
  /-- `fb.state` (R40). -/
  state : StateCode
  /-- `fb.address` (R41). -/
  address : Byte
  /-- `fb.msg_type` (R42). -/
  msgType : Byte
  /-- `fb.data_length` (R43). -/
  dataLength : Byte
  /-- `fb.checksum` (R44). -/
  checksum : Byte
  /-- `fb.pl_count` (R45). -/
  plCount : Byte
  /-- `fb.pl_start` (R46). -/
  plStart : Offset
  /-- `fb.frame_start` (R47). -/
  frameStart : Offset
  /-- `fb.last_end` (R48). -/
  lastEnd : Offset
  /-- `fb.last_valid` (R49). -/
  lastValid : Bool
  deriving DecidableEq, Repr

/-- The payload buffer `PL` (spec/20_memory.md R62): the entries that have been written, index and byte, indices
strictly rising. An index that is not listed has not been written and reads as a free value (log 9). -/
abbrev Memory := List Host.Cell

/-- Unit FB: its registers, its memory, its registered output ports and the record of what it has put out. -/
structure FbUnit where
  regs : FbRegs
  /-- `PL` (spec/20_memory.md R62). -/
  pl : Memory
  /-- The `gap_*` port of spec/30_encoding.md R93: the `FB_GAP` event shown, `none` when `gap_valid = 0` (log 10). -/
  gapPort : Option Event
  /-- The `ev_*` and `fr_*` ports of R93: the event shown, `none` when `ev_valid = 0` (log 10). -/
  evPort : Option Event
  /-- The diagnostic port of R171. -/
  dgPort : Option Diag
  /-- MODEL's own: every event emitted so far, oldest first (spec/00_scope.md R16; log 11). -/
  events : List Event
  /-- MODEL's own: every diagnostic so far, oldest first (log 11). -/
  diags : List Diag
  deriving DecidableEq, Repr

/-- The machine: the configuration, the two units, and the clock edges the host will drive. -/
structure State where
  /-- The configuration constants (spec/10_state.md R54; log 6). -/
  cfg : Config
  /-- Unit SS. -/
  ss : SsUnit
  /-- Unit FB. -/
  fb : FbUnit
  /-- MODEL's own: what the host drives, one clock edge of one unit an entry, the next one first (log 1). -/
  input : List Drive
  deriving DecidableEq, Repr

/-- The model's one fault (spec/60_exceptions.md R175). -/
inductive Fault
  /-- `Fault(IllegalState)`, with the unit and the state code. Raised by `SS.ILLEGAL`, `FB.WAIT_DATA` and `FB.ILLEGAL`
  and by nothing else (spec/30_encoding.md R95, R96). Safe: the spec gives these operations this outcome, and no run
  from reset reaches them. -/
  | illegalState (unit : UnitId) (code : StateCode)
  deriving DecidableEq, Repr

/-- Why the model gives a step no meaning. -/
inductive Refusal
  /-- Raised by `exec` for an instruction without a meaning (none here). Safe. -/
  | notModelled (mnemonic : String)
  /-- Raised by `step` for a beat of unit SS while `SYNC_RUN_LEN` is 0, outside its legal range
  (spec/93_implementation_defined.md U15: "refuse"). Safe (log 7). -/
  | syncRunLenOutOfRange
  /-- Raised by `step` if the decoder rejects the bytes fetched; never, since the fetch writes only bytes of the
  model's own layout (log 4). Safe. -/
  | undecodable (e : DecodeError)
  deriving DecidableEq, Repr

/-- The reset values of spec/10_state.md R59 for unit SS. -/
def SsRegs.reset : SsRegs where
  state := SsCode.awaitSync
  run := 0#8
  syncStart := 0#64
  address := 0#16
  count := 0#16
  countNeg := false
  value := 0#16
  fieldStart := 0#64

/-- The reset values of spec/10_state.md R59 for unit FB. -/
def FbRegs.reset : FbRegs where
  state := FbCode.sync
  address := 0#8
  msgType := 0#8
  dataLength := 0#8
  checksum := 0#8
  plCount := 0#8
  plStart := 0#64
  frameStart := 0#64
  lastEnd := 0#64
  lastValid := false

/-- The machine right after reset (spec/10_state.md R59, spec/70_reset_and_hazards.md R200): every register at its
value of R59, the configuration at its defaults (R54), the ports not valid, no entry of `PL` written, nothing emitted
and nothing yet driven by the host. -/
def State.reset : State where
  cfg := Config.defaults
  ss :=
    { regs := SsRegs.reset
      evPort := none
      dgPort := none
      events := []
      diags := [] }
  fb :=
    { regs := FbRegs.reset
      pl := []
      gapPort := none
      evPort := none
      dgPort := none
      events := []
      diags := [] }
  input := []

end Sys2Proof.Machine
end

