-- ==== Sys2Proof/Machine/Operands.lean ====
section
/-! DEFINITION. Operand forms: word assembly from two bytes, zero extension, the run counter in its width, and the
saturating gap. -/

namespace Sys2Proof.Machine

/-- `{b1, b0}`: the first byte is bits 7:0, the second bits 15:8 (spec/30_encoding.md R83, spec/20_memory.md R64). -/
def assembleWord (b0 b1 : Byte) : Half := b1 ++ b0

/-- Bits 7:0. -/
def lowByte (h : Half) : Byte := h.extractLsb' 0 8

/-- `zext_16` (spec/00_scope.md R15): what a low-byte operation stores (decision D11). -/
def zext16 (b : Byte) : Half := b.setWidth 16

/-- The high-byte operation's word: bits 15:8 replaced by the byte, bits 7:0 kept (spec/30_encoding.md R83). -/
def withHighByte (h : Half) (b : Byte) : Half := assembleWord (lowByte h) b

/-- The width of `ss.run`, `max(1, ceil(log2(SYNC_RUN_LEN)))` (spec/00_scope.md R8): the least width, at least 1, in which
the values below `SYNC_RUN_LEN` fit. -/
def runWidth (c : Config) : Nat := ([1, 2, 3, 4, 5, 6, 7].find? (fun w => decide (c.syncRunLen.toNat ≤ 2 ^ w))).getD 8

/-- The value of `ss.run`: the bits of the field within the register's width. -/
def ssRun (c : Config) (r : SsRegs) : Nat := r.run.toNat % 2 ^ runWidth c

/-- What a write of `n` to `ss.run` leaves in the field: the bits within the register's width, zero above (log 8). -/
def runOfNat (c : Config) (n : Nat) : BitVec 8 := BitVec.ofNat 8 (n % 2 ^ runWidth c)

/-- The inter-byte gap: 64-bit unsigned, saturating at 0 (spec/41_framed_bus_ops.md R141, R153). -/
def gapOf (lastEnd start : Offset) : Offset := if lastEnd ≤ start then start - lastEnd else 0#64

end Sys2Proof.Machine
end

