-- ==== Sys2Proof/Machine/Flags.lean ====
section
/-! DEFINITION. The combinational predicates of a beat (spec/10_state.md R53), each computed from pre-beat values and
never stored. -/

namespace Sys2Proof.Machine

/-- `match = (in.byte = SYNC_BYTE)`. -/
def ssMatch (c : Config) (b : Beat) : Bool := b.byte == c.syncByte

/-- `hit = match and (ss.run + 1 = SYNC_RUN_LEN)`, the sum over unbounded integers (spec/40_sync_stream_ops.md R110,
spec/00_scope.md R14). -/
def ssHit (c : Config) (r : SsRegs) (b : Beat) : Bool :=
  ssMatch c b && ssRun c r + 1 == c.syncRunLen.toNat

/-- `esc = ({in.byte, ss.address[7:0]} = ESC_ADDR)`. -/
def ssEsc (c : Config) (r : SsRegs) (b : Beat) : Bool := withHighByte r.address b.byte == c.escAddr

/-- `gap` of the beat against the previous byte's end. -/
def fbGapValue (r : FbRegs) (b : Beat) : Offset := gapOf r.lastEnd b.ss

/-- `g = fb.last_valid = 1 and gap >= GAP_RESET_THRESHOLD`. -/
def fbG (c : Config) (r : FbRegs) (b : Beat) : Bool :=
  r.lastValid && decide (c.gapResetThreshold ≤ fbGapValue r b)

/-- `gap < GAP_NOISE_CEILING`: with `g`, the predicate `report`. -/
def fbBelowCeiling (c : Config) (r : FbRegs) (b : Beat) : Bool := decide (fbGapValue r b < c.gapNoiseCeiling)

/-- `report = g and gap < GAP_NOISE_CEILING`. -/
def fbReport (c : Config) (r : FbRegs) (b : Beat) : Bool := fbG c r b && fbBelowCeiling c r b

/-- `bcast = (fb.address = 0)`. -/
def fbBcast (r : FbRegs) : Bool := r.address == 0#8

/-- The guard of `FB.PAYLOAD`: fewer bytes appended than announced (spec/41_framed_bus_ops.md R147). -/
def fbRoom (r : FbRegs) : Bool := decide (r.plCount < r.dataLength)

/-- `n'` of `FB.PAYLOAD`: the bytes appended once this beat is done. -/
def fbPlCountAfter (r : FbRegs) : Byte := if fbRoom r then r.plCount + 1#8 else r.plCount

/-- `done`: the payload is complete once this beat is done (`n' = fb.data_length`). -/
def fbDone (r : FbRegs) : Bool := fbPlCountAfter r == r.dataLength

/-- The end-of-record test of `SS.DATA_HI` on the post-decrement values (spec/10_state.md R26). -/
def ssRecordEnds (count : Half) (countNeg : Bool) : Bool := count == 0#16 && !countNeg

end Sys2Proof.Machine
end

