-- ==== Sys2Proof/Machine/Ops.lean ====
section
/-! DEFINITION. The named operations the meanings share: the payload buffer, the sync pattern matcher, the countdown,
`FrameReset()`, the offset update, the end of a beat in each unit, and the one fault.

The machine takes no exception and returns from none (spec/60_exceptions.md R170, R178, R179): where a processor has
exception entry, this one has the two forced transitions written here, `frameReset` and the escape of `SS.ADDR_HI`. -/

namespace Sys2Proof.Machine

open Host (Outcome)

/-! ## The payload buffer (spec/20_memory.md R62, R63) -/

/-- Entries in the buffer (`PL_DEPTH`, decision D23). -/
def plDepth : Nat := 256

/-- The byte written at an index, `none` while nothing has written it. -/
def Memory.written? : Memory → Nat → Option Byte
  | [], _ => none
  | (a, v) :: m, i => if a = i then some v else Memory.written? m i

/-- `MemRead(i, 1)`: an entry nothing has written reads as a free value (log 9). No side effect. -/
def Memory.read (m : Memory) (i : Nat) : Byte := (Memory.written? m i).getD (Config.plUnwritten i)

/-- `MemWrite(i, 1, v)`, keeping the indices strictly rising. -/
def Memory.write : Memory → Nat → Byte → Memory
  | [], i, v => [(i, v)]
  | (a, w) :: m, i, v =>
    if i < a then (i, v) :: (a, w) :: m
    else if i = a then (i, v) :: m
    else (a, w) :: Memory.write m i v

/-- The first `n` entries, entry 0 first: the payload of a frame. -/
def Memory.readFirst (m : Memory) (n : Nat) : List Byte := (List.range n).map (Memory.read m)

/-- Every index of `m` is at least `low`, strictly rising, and inside the buffer. -/
def Memory.wfFrom (low : Nat) : Memory → Bool
  | [] => true
  | (a, _) :: m => decide (low ≤ a) && decide (a < plDepth) && Memory.wfFrom (a + 1) m

/-- The canonical form: indices strictly rising, all inside the buffer. An entry nothing has written has no value of
its own to be compared with, so equal buffers are equal lists. -/
def Memory.wf (m : Memory) : Bool := Memory.wfFrom 0 m

/-! ## Unit SS -/

/-- Start offset of the run this byte belongs to: `first` of spec/40_sync_stream_ops.md R110. -/
def runStart (c : Config) (r : SsRegs) (b : Beat) : Offset := if ssRun c r = 0 then b.ss else r.syncStart

/-- The sync pattern matcher, prelude of every beat (R110). -/
def syncMatcher (c : Config) (b : Beat) (r : SsRegs) : SsRegs :=
  if ssMatch c b then
    if ssHit c r b then { r with run := 0#8, syncStart := runStart c r b }
    else { r with run := runOfNat c (ssRun c r + 1), syncStart := runStart c r b }
  else { r with run := 0#8 }

/-- `c'` of `Decrement()` (R120). -/
def decCount (r : SsRegs) : Half := r.count - 1#16

/-- `neg'` of `Decrement()`: borrowing out of zero sets the sticky flag (R120). -/
def decCountNeg (r : SsRegs) : Bool := r.countNeg || r.count == 0#16

/-- The diagnostic of `Decrement()`: the first underrun of the record (R120, spec/60_exceptions.md R174). -/
def decDiag (r : SsRegs) : Option Diag :=
  if r.count == 0#16 && !r.countNeg then some .countUnderrun else none

/-- Appends the one item of a beat, if there is one. -/
def appendItem {α : Type} (l : List α) : Option α → List α
  | none => l
  | some x => l ++ [x]

/-- The end of a clock edge of unit SS: the registers take their new values together, the registered ports show this
edge's event and diagnostic, at most one of each (R123, spec/30_encoding.md R92). -/
def SsUnit.finish (u : SsUnit) (r : SsRegs) (ev : Option Event) (dg : Option Diag) : SsUnit where
  regs := r
  evPort := ev
  dgPort := dg
  events := appendItem u.events ev
  diags := appendItem u.diags dg

/-- The end of a clock edge of unit SS, in the machine: unit FB, the configuration and the input are not touched
(spec/60_exceptions.md R186). -/
def State.finishSs (s : State) (r : SsRegs) (ev : Option Event) (dg : Option Diag) : State :=
  { s with ss := s.ss.finish r ev dg }

/-! ## Unit FB -/

/-- `FrameReset()`: re-enter `SYNC`, clear the byte counter; exactly these two registers
(spec/41_framed_bus_ops.md R142). -/
def frameReset (r : FbRegs) : FbRegs := { r with state := FbCode.sync, plCount := 0#8 }

/-- The offset update, phase 3 of every beat (R150). -/
def offsetUpdate (b : Beat) (r : FbRegs) : FbRegs := { r with lastEnd := b.es, lastValid := true }

/-- The operation of state `SYNC` on the registers: the byte is the frame's address (R143). -/
def takeAddress (b : Beat) (r : FbRegs) : FbRegs :=
  { r with address := b.byte, frameStart := b.ss, state := FbCode.waitAddress }

/-- The gap prelude's event, when the gap is reported (R141). -/
def gapEvent (c : Config) (r : FbRegs) (b : Beat) : Option Event :=
  if fbBelowCeiling c r b then some (.fbGap r.lastEnd b.ss (fbGapValue r b)) else none

/-- The end of a clock edge of unit FB: registers and buffer take their new values together, the ports show this
edge's gap event, event and diagnostic; the gap event comes first (R151, spec/30_encoding.md R93). -/
def FbUnit.finish (u : FbUnit) (r : FbRegs) (pl : Memory) (gap ev : Option Event) (dg : Option Diag) : FbUnit where
  regs := r
  pl := pl
  gapPort := gap
  evPort := ev
  dgPort := dg
  events := appendItem (appendItem u.events gap) ev
  diags := appendItem u.diags dg

/-- The end of a clock edge of unit FB, in the machine: unit SS, the configuration and the input are not touched
(spec/60_exceptions.md R186). -/
def State.finishFb (s : State) (r : FbRegs) (pl : Memory) (gap ev : Option Event) (dg : Option Diag) : State :=
  { s with fb := s.fb.finish r pl gap ev dg }

/-! ## The fault -/

/-- `raise Fault(IllegalState)` with the unit and its state code: nothing written, nothing emitted
(spec/60_exceptions.md R175). -/
def raiseIllegalState (u : UnitId) (code : StateCode) : Outcome State Fault Refusal :=
  .fault (.illegalState u code)

end Sys2Proof.Machine
end

