-- ==== Sys2Proof/Machine/FramedBus.lean ====
section
/-! DEFINITION. The meanings of unit FB's operations (spec/41_framed_bus_ops.md). A beat runs the gap prelude, the
state operation and the offset update (R140); the dispatch folds the prelude's two outcomes into `FB.GAP_ADDR`
(`g = 1`) and the other rows (`g = 0`, where the prelude does nothing). -/

namespace Sys2Proof.Machine

open Host (Outcome)

/-- `FB.RESET` (spec/70_reset_and_hazards.md R200): `PL` is not cleared. -/
def execFbReset (_inValid _g : Bool) (_code : StateCode) (s : State) : Outcome State Fault Refusal :=
  .next (s.finishFb FbRegs.reset s.fb.pl none none none)

/-- `FB.NOP` (R149): no register is written, not even `fb.last_end`; the ports return to not valid. -/
def execFbNop (_g : Bool) (_code : StateCode) (s : State) : Outcome State Fault Refusal :=
  .next (s.finishFb s.fb.regs s.fb.pl none none none)

/-- `FB.GAP_ADDR` (R144): frame reset and diagnostic, the gap event if it is reported, then the byte as an address. -/
def execFbGapAddr (_code : StateCode) (b : Beat) (s : State) : Outcome State Fault Refusal :=
  let r := s.fb.regs
  .next (s.finishFb (offsetUpdate b (takeAddress b (frameReset r))) s.fb.pl
    (gapEvent s.cfg r b) (some (.fbAddr b.ss b.es b.byte)) (some .gapReset))

/-- `FB.ADDR` (R143). -/
def execFbAddr (b : Beat) (s : State) : Outcome State Fault Refusal :=
  .next (s.finishFb (offsetUpdate b (takeAddress b s.fb.regs)) s.fb.pl
    none (some (.fbAddr b.ss b.es b.byte)) none)

/-- `FB.MSGTYPE` (R145). -/
def execFbMsgType (b : Beat) (s : State) : Outcome State Fault Refusal :=
  .next (s.finishFb
    (offsetUpdate b { s.fb.regs with msgType := b.byte, state := FbCode.waitMsgType }) s.fb.pl
    none (some (.fbMsgType b.ss b.es b.byte)) none)

/-- `FB.DATALEN` (R146): a zero length goes straight to `WAIT_CHECKSUM` (C3). -/
def execFbDataLen (b : Beat) (s : State) : Outcome State Fault Refusal :=
  .next (s.finishFb
    (offsetUpdate b
      { s.fb.regs with
        dataLength := b.byte
        state := if b.byte = 0#8 then FbCode.waitChecksum else FbCode.waitDataLength })
    s.fb.pl none (some (.fbDataLen b.ss b.es b.byte)) none)

/-- `FB.PAYLOAD` (R147): the byte is appended while there is room; the completing byte emits the span event and
changes state. -/
def execFbPayload (b : Beat) (s : State) : Outcome State Fault Refusal :=
  let r := s.fb.regs
  let start := if r.plCount = 0#8 then b.ss else r.plStart
  .next (s.finishFb
    (offsetUpdate b
      { r with
        plStart := if fbRoom r then start else r.plStart
        plCount := fbPlCountAfter r
        state := if fbDone r then FbCode.waitChecksum else r.state })
    (if fbRoom r then s.fb.pl.write r.plCount.toNat b.byte else s.fb.pl)
    none (if fbDone r then some (.fbPayload start b.es r.dataLength) else none) none)

/-- `FB.WAIT_DATA` (spec/30_encoding.md R95): `raise Fault(IllegalState)`. -/
def execFbWaitData (_b : Beat) (s : State) : Outcome State Fault Refusal :=
  raiseIllegalState .fb s.fb.regs.state

/-- `FB.CHECKSUM` (R148): the frame event carries the payload by value; a broadcast frame resets the frame, any other
leaves `fb.state` as it is (decision D19). Nothing is checked. -/
def execFbChecksum (b : Beat) (s : State) : Outcome State Fault Refusal :=
  let r := s.fb.regs
  let r' := { r with checksum := b.byte }
  .next (s.finishFb (offsetUpdate b (if fbBcast r then frameReset r' else r')) s.fb.pl none
    (some (.fbFrame r.frameStart b.es r.address r.msgType r.dataLength
      (s.fb.pl.readFirst r.dataLength.toNat) b.byte)) none)

/-- `FB.ILLEGAL` (spec/30_encoding.md R96): `raise Fault(IllegalState)`. -/
def execFbIllegal (_code : StateCode) (_b : Beat) (s : State) : Outcome State Fault Refusal :=
  raiseIllegalState .fb s.fb.regs.state

end Sys2Proof.Machine
end

