-- ==== Sys2Proof/Machine/SyncStream.lean ====
section
/-! DEFINITION. The meanings of unit SS's operations (spec/40_sync_stream_ops.md). Every register read is the value
from before the beat; the matcher's writes and the operation's writes land together (spec/00_scope.md R15). -/

namespace Sys2Proof.Machine

open Host (Outcome)

/-- `SS.RESET` (spec/70_reset_and_hazards.md R200): the other inputs are ignored, a presented beat is lost. -/
def execSsReset (_inValid _hit : Bool) (_code : StateCode) (s : State) : Outcome State Fault Refusal :=
  .next (s.finishSs SsRegs.reset none none)

/-- `SS.NOP` (R119): no register is written; the ports return to not valid. -/
def execSsNop (_hit : Bool) (_code : StateCode) (s : State) : Outcome State Fault Refusal :=
  .next (s.finishSs s.ss.regs none none)

/-- `SS.SYNC` (R111): `hit` is true, so the matcher clears `ss.run` and writes `ss.sync_start`. -/
def execSsSync (_code : StateCode) (b : Beat) (s : State) : Outcome State Fault Refusal :=
  let r := s.ss.regs
  let first := runStart s.cfg r b
  .next (s.finishSs
    { r with
      run := 0#8
      syncStart := first
      address := 0#16
      count := 0#16
      countNeg := false
      value := 0#16
      state := SsCode.addrLow }
    (some (.ssSync first b.es)) none)

/-- `SS.IDLE` (R112): the matcher alone. -/
def execSsIdle (b : Beat) (s : State) : Outcome State Fault Refusal :=
  .next (s.finishSs (syncMatcher s.cfg b s.ss.regs) none none)

/-- `SS.ADDR_LO` (R113). -/
def execSsAddrLo (b : Beat) (s : State) : Outcome State Fault Refusal :=
  .next (s.finishSs
    { syncMatcher s.cfg b s.ss.regs with
      address := zext16 b.byte
      fieldStart := b.ss
      state := SsCode.addrHigh }
    none none)

/-- `SS.ADDR_HI` (R114): the address event is emitted in both branches (decision D12). -/
def execSsAddrHi (b : Beat) (s : State) : Outcome State Fault Refusal :=
  let r := s.ss.regs
  let a := withHighByte r.address b.byte
  let esc := ssEsc s.cfg r b
  .next (s.finishSs
    { syncMatcher s.cfg b r with
      address := a
      state := if esc then SsCode.awaitSync else SsCode.countLow }
    (some (.ssAddr r.fieldStart b.es a esc)) (if esc then some .escape else none))

/-- `SS.CNT_LO` (R115). -/
def execSsCntLo (b : Beat) (s : State) : Outcome State Fault Refusal :=
  .next (s.finishSs
    { syncMatcher s.cfg b s.ss.regs with
      count := zext16 b.byte
      countNeg := false
      fieldStart := b.ss
      state := SsCode.countHigh }
    none none)

/-- `SS.CNT_HI` (R116): a zero or odd count is accepted without comment. -/
def execSsCntHi (b : Beat) (s : State) : Outcome State Fault Refusal :=
  let r := s.ss.regs
  let c := withHighByte r.count b.byte
  .next (s.finishSs
    { syncMatcher s.cfg b r with
      count := c
      state := SsCode.dataLow }
    (some (.ssCount r.fieldStart b.es c)) none)

/-- `SS.DATA_LO` (R117): the end-of-record test is not made here. -/
def execSsDataLo (b : Beat) (s : State) : Outcome State Fault Refusal :=
  let r := s.ss.regs
  .next (s.finishSs
    { syncMatcher s.cfg b r with
      value := zext16 b.byte
      count := decCount r
      countNeg := decCountNeg r
      fieldStart := b.ss
      state := SsCode.dataHigh }
    none (decDiag r))

/-- `SS.DATA_HI` (R118): the WriteRecord carries the address before the increment, the test is on the post-decrement
countdown. -/
def execSsDataHi (b : Beat) (s : State) : Outcome State Fault Refusal :=
  let r := s.ss.regs
  let v := withHighByte r.value b.byte
  .next (s.finishSs
    { syncMatcher s.cfg b r with
      value := v
      count := decCount r
      countNeg := decCountNeg r
      address := r.address + 2#16
      state := if ssRecordEnds (decCount r) (decCountNeg r) then SsCode.addrLow else SsCode.dataLow }
    (some (.ssWrite r.fieldStart b.es r.address v)) (decDiag r))

/-- `SS.ILLEGAL` (spec/30_encoding.md R96): `raise Fault(IllegalState)`. -/
def execSsIllegal (_b : Beat) (s : State) : Outcome State Fault Refusal :=
  raiseIllegalState .ss s.ss.regs.state

end Sys2Proof.Machine
end

