-- ==== Sys2Proof/Machine/Dispatch.lean ====
section
/-! DEFINITION. One arm per row of spec/opcode_table.json, each a call of the row's meaning. -/

namespace Sys2Proof.Machine

def exec (i : Instr) (s : State) : Host.Outcome State Fault Refusal :=
  match i with
  | .ssReset inValid hit code => Sys2Proof.Machine.execSsReset inValid hit code s
  | .ssNop hit code => Sys2Proof.Machine.execSsNop hit code s
  | .ssSync code b => Sys2Proof.Machine.execSsSync code b s
  | .ssIdle b => Sys2Proof.Machine.execSsIdle b s
  | .ssAddrLo b => Sys2Proof.Machine.execSsAddrLo b s
  | .ssAddrHi b => Sys2Proof.Machine.execSsAddrHi b s
  | .ssCntLo b => Sys2Proof.Machine.execSsCntLo b s
  | .ssCntHi b => Sys2Proof.Machine.execSsCntHi b s
  | .ssDataLo b => Sys2Proof.Machine.execSsDataLo b s
  | .ssDataHi b => Sys2Proof.Machine.execSsDataHi b s
  | .ssIllegal b => Sys2Proof.Machine.execSsIllegal b s
  | .fbReset inValid g code => Sys2Proof.Machine.execFbReset inValid g code s
  | .fbNop g code => Sys2Proof.Machine.execFbNop g code s
  | .fbGapAddr code b => Sys2Proof.Machine.execFbGapAddr code b s
  | .fbAddr b => Sys2Proof.Machine.execFbAddr b s
  | .fbMsgType b => Sys2Proof.Machine.execFbMsgType b s
  | .fbDataLen b => Sys2Proof.Machine.execFbDataLen b s
  | .fbPayload b => Sys2Proof.Machine.execFbPayload b s
  | .fbWaitData b => Sys2Proof.Machine.execFbWaitData b s
  | .fbChecksum b => Sys2Proof.Machine.execFbChecksum b s
  | .fbIllegal code b => Sys2Proof.Machine.execFbIllegal code b s

end Sys2Proof.Machine
end

