-- ==== Sys2Proof/Machine/Fetch.lean ====
section
/-! DEFINITION. How the next instruction comes about. The machine fetches no program: at a clock edge of a unit, the
dispatch word is formed from `rst`, `in_valid`, the per-beat predicate and the state register (spec/30_encoding.md R88,
R89), and with the beat on the input port it is the instruction (log 1 to 5). -/

namespace Sys2Proof.Machine

/-- An idle cycle of unit SS: what the model steps through when the host has nothing more to drive (log 2). -/
def Drive.idle : Drive where
  unit := .ss
  rst := false
  inValid := false
  beat := noBeat

/-- What is driven at the next clock edge. -/
def nextDrive (s : State) : Drive := s.input.headD Drive.idle

/-- The rest of what the host drives: the edge is consumed (spec/30_encoding.md R81). -/
def State.consume (s : State) : State := { s with input := s.input.tail }

/-- `K_ss` (R88). -/
def ssDispatchWord (s : State) (d : Drive) : DispatchWord :=
  packDispatch d.rst d.inValid (ssHit s.cfg s.ss.regs d.beat) s.ss.regs.state

/-- `K_fb` (R89). -/
def fbDispatchWord (s : State) (d : Drive) : DispatchWord :=
  packDispatch d.rst d.inValid (fbG s.cfg s.fb.regs d.beat) s.fb.regs.state

/-- The dispatch word of the unit whose clock edge this is. -/
def dispatchWord (s : State) (d : Drive) : DispatchWord :=
  match d.unit with
  | .ss => ssDispatchWord s d
  | .fb => fbDispatchWord s d

/-- The bytes of the instruction that the next clock edge performs. -/
def fetchBytes (s : State) : List Byte :=
  let d := nextDrive s
  let k := dispatchWord s d
  headerByte d.unit k :: (if dispatchHasBeat k then beatBytes d.beat else [])

/-- Unit SS is about to consume a beat with `SYNC_RUN_LEN` outside its legal range: not modelled
(spec/93_implementation_defined.md U15; log 7). -/
def runLenUnusable (s : State) : Bool :=
  let d := nextDrive s
  d.unit == .ss && !d.rst && d.inValid && !s.cfg.runLenLegal

/-- The instruction that the next clock edge performs. -/
def State.fetch (s : State) : Except Refusal Instr :=
  if runLenUnusable s then .error .syncRunLenOutOfRange
  else
    match decode (fetchBytes s) with
    | .ok (i, _) => .ok i
    | .error e => .error (.undecodable e)

/-- `s` with `i` as the next instruction: its unit, `rst`, `in_valid` and beat stand first in `input`, and the state
register and the quantities behind the dispatch word's bit 3 are such that bit 3 is `i`'s. Unit SS: `hit` needs
`SYNC_BYTE` equal to the byte and `ss.run` one short of the run; no `hit` needs a `SYNC_BYTE` other than the byte. Unit
FB: `g` needs `fb.last_valid` and a threshold the gap reaches; no `g` needs `fb.last_valid = 0` (log 5). -/
def State.presenting (s : State) (i : Instr) : State :=
  let k := i.dispatch
  let b := i.beat?.getD noBeat
  let s' := { s with input := ⟨i.unit, dispatchRst k, dispatchInValid k, b⟩ :: s.input }
  match i.unit with
  | .ss =>
    if dispatchSel k then
      { s' with
        cfg := { s.cfg with syncByte := b.byte }
        ss :=
          { s.ss with
            regs :=
              { s.ss.regs with
                state := dispatchCode k, run := runOfNat s.cfg (s.cfg.syncRunLen.toNat - 1) } } }
    else
      { s' with
        cfg := { s.cfg with syncByte := if s.cfg.syncByte = b.byte then ~~~ b.byte else s.cfg.syncByte }
        ss := { s.ss with regs := { s.ss.regs with state := dispatchCode k } } }
  | .fb =>
    if dispatchSel k then
      { s' with
        cfg := { s.cfg with gapResetThreshold := 0#64 }
        fb := { s.fb with regs := { s.fb.regs with state := dispatchCode k, lastValid := true } } }
    else
      { s' with
        fb := { s.fb with regs := { s.fb.regs with state := dispatchCode k, lastValid := false } } }

end Sys2Proof.Machine
end

