-- ==== Sys2Proof/Machine/Step.lean ====
section
/-! DEFINITION. One step: one rising clock edge of one unit (log 1). -/

namespace Sys2Proof.Machine

/-- The next clock edge: the instruction it performs, run on the state with the edge consumed. -/
def step (s : State) : Host.Outcome State Fault Refusal :=
  match s.fetch with
  | .ok i => exec i s.consume
  | .error r => .refused r

/-- `s` with the instruction of the table word `w` as the one the next step performs; a word the decoder rejects leaves
`s` as it is. This stands for the host placing a beat: no program is loaded into the machine (log 3). -/
def State.withFetchWord (s : State) (nbits w : Nat) : State :=
  match decodeTableWord nbits w with
  | some i => s.presenting i
  | none => s

end Sys2Proof.Machine
end

