-- ==== Sys2Proof/Machine/Ports.lean ====
section
/-! DEFINITION. What the host can see of a unit at its pins: the registered event, gap and diagnostic ports
(spec/30_encoding.md R86, R87, R92, R93, spec/60_exceptions.md R171), the status outputs (spec/10_state.md R55) and the
payload read port (spec/20_memory.md R75). No operation reads any of it. -/

namespace Sys2Proof.Machine

/-- The 4-bit kind code (spec/30_encoding.md R86); code 0 is `NONE`. -/
def Event.kindCode : Event → BitVec 4
  | .ssSync _ _ => 1#4
  | .ssAddr _ _ _ _ => 2#4
  | .ssCount _ _ _ => 3#4
  | .ssWrite _ _ _ _ => 4#4
  | .fbGap _ _ _ => 8#4
  | .fbAddr _ _ _ => 9#4
  | .fbMsgType _ _ _ => 10#4
  | .fbDataLen _ _ _ => 11#4
  | .fbPayload _ _ _ => 12#4
  | .fbFrame _ _ _ _ _ _ _ => 13#4

/-- The span's start. -/
def Event.spanStart : Event → Offset
  | .ssSync ss _ => ss
  | .ssAddr ss _ _ _ => ss
  | .ssCount ss _ _ => ss
  | .ssWrite ss _ _ _ => ss
  | .fbGap ss _ _ => ss
  | .fbAddr ss _ _ => ss
  | .fbMsgType ss _ _ => ss
  | .fbDataLen ss _ _ => ss
  | .fbPayload ss _ _ => ss
  | .fbFrame ss _ _ _ _ _ _ => ss

/-- The span's end. -/
def Event.spanEnd : Event → Offset
  | .ssSync _ es => es
  | .ssAddr _ es _ _ => es
  | .ssCount _ es _ => es
  | .ssWrite _ es _ _ => es
  | .fbGap _ es _ => es
  | .fbAddr _ es _ => es
  | .fbMsgType _ es _ => es
  | .fbDataLen _ es _ => es
  | .fbPayload _ es _ => es
  | .fbFrame _ es _ _ _ _ _ => es

/-- The pin `ev_addr` of unit SS: 0 for kinds without an address (R92). -/
def Event.addrPin : Event → Half
  | .ssAddr _ _ a _ => a
  | .ssWrite _ _ a _ => a
  | _ => 0#16

/-- The pin `ev_data` of unit SS: 0 for kinds without one (R92). -/
def Event.dataPin : Event → Half
  | .ssCount _ _ c => c
  | .ssWrite _ _ _ v => v
  | _ => 0#16

/-- The pin `ev_esc` of unit SS: 0 for other kinds (R92). -/
def Event.escPin : Event → Bool
  | .ssAddr _ _ _ esc => esc
  | _ => false

/-- The pin `ev_byte` of unit FB, for the kinds of R93 that give it a value. -/
def Event.bytePin : Event → Option Byte
  | .fbAddr _ _ b => some b
  | .fbMsgType _ _ b => some b
  | .fbDataLen _ _ b => some b
  | .fbPayload _ _ n => some n
  | .fbFrame _ _ _ _ _ _ c => some c
  | _ => none

/-- The pin `gap_dur` of unit FB. -/
def Event.durationPin : Event → Option Offset
  | .fbGap _ _ d => some d
  | _ => none

/-- The 2-bit diagnostic code (spec/60_exceptions.md R171); code 0 is the idle value. -/
def Diag.code : Diag → BitVec 2
  | .escape => 1#2
  | .gapReset => 2#2
  | .countUnderrun => 3#2

/-- `dg_code`, idle or pulsing. -/
def diagPin : Option Diag → BitVec 2
  | none => 0#2
  | some d => d.code

/-- The values on the output pins of unit SS (R92). -/
structure SsPins where
  evValid : Bool
  evKind : BitVec 4
  evSs : Offset
  evEs : Offset
  evAddr : Half
  evData : Half
  evEsc : Bool
  dgValid : Bool
  dgCode : BitVec 2
  stState : StateCode
  stCountNeg : Bool
  deriving DecidableEq, Repr

/-- Unit SS shows `p` at its pins. While `ev_valid = 0` only `ev_kind` is fixed: the other event pins are any value
(spec/93_implementation_defined.md U20; log 10). -/
def SsUnit.shows (u : SsUnit) (p : SsPins) : Bool :=
  p.evValid == u.evPort.isSome && p.dgValid == u.dgPort.isSome && p.dgCode == diagPin u.dgPort &&
  p.stState == u.regs.state && p.stCountNeg == u.regs.countNeg &&
  match u.evPort with
  | none => p.evKind == 0#4
  | some e =>
    p.evKind == e.kindCode && p.evSs == e.spanStart && p.evEs == e.spanEnd &&
    p.evAddr == e.addrPin && p.evData == e.dataPin && p.evEsc == e.escPin

/-- The values on the output pins of unit FB (R93), `pl_rdata` apart. -/
structure FbPins where
  gapValid : Bool
  gapSs : Offset
  gapEs : Offset
  gapDur : Offset
  evValid : Bool
  evKind : BitVec 4
  evSs : Offset
  evEs : Offset
  evByte : Byte
  frAddress : Byte
  frMsgType : Byte
  frDataLength : Byte
  frChecksum : Byte
  dgValid : Bool
  dgCode : BitVec 2
  stState : StateCode
  stPlCount : Byte
  deriving DecidableEq, Repr

/-- The gap pins show `port`: any value while `gap_valid = 0` (U20). -/
def showsGap (port : Option Event) (p : FbPins) : Bool :=
  match port with
  | none => true
  | some e => p.gapSs == e.spanStart && p.gapEs == e.spanEnd && e.durationPin == some p.gapDur

/-- The frame pins show `e`: valid when the kind is `FB_FRAME` (R93), any value otherwise. -/
def showsFrame (e : Event) (p : FbPins) : Bool :=
  match e with
  | .fbFrame _ _ a t n _ c => p.frAddress == a && p.frMsgType == t && p.frDataLength == n && p.frChecksum == c
  | _ => true

/-- Unit FB shows `p` at its pins; what U20 and R93 leave open is any value (log 10). -/
def FbUnit.shows (u : FbUnit) (p : FbPins) : Bool :=
  p.gapValid == u.gapPort.isSome && showsGap u.gapPort p &&
  p.evValid == u.evPort.isSome && p.dgValid == u.dgPort.isSome && p.dgCode == diagPin u.dgPort &&
  p.stState == u.regs.state && p.stPlCount == u.regs.plCount &&
  match u.evPort with
  | none => p.evKind == 0#4
  | some e =>
    p.evKind == e.kindCode && p.evSs == e.spanStart && p.evEs == e.spanEnd &&
    e.bytePin == some p.evByte && showsFrame e p

/-- The payload read port: `pl_rdata = PL[pl_raddr]`, combinational, no side effect (spec/20_memory.md R75). -/
def FbUnit.plRdata (u : FbUnit) (plRaddr : Byte) : Byte := u.pl.read plRaddr.toNat

end Sys2Proof.Machine
end

