-- ==== Sys2Proof/Machine/Stimulus.lean ====
section
/-! DEFINITION. The stimulus notation of spec/30_encoding.md R99 and its macros (R100), as items rather than characters
(log 15): what a stimulus for one unit makes the host drive. It is the spec's test language; no operation uses it. -/

namespace Sys2Proof.Machine

/-- A line of a stimulus. -/
inductive StimItem
  /-- `XX`: a beat at the running position. -/
  | byte (v : Byte)
  /-- `XX @S..E`. -/
  | span (v : Byte) (start stop : Nat)
  /-- `.pitch P W`. -/
  | pitch (p w : Nat)
  /-- `.at T`. -/
  | at (t : Nat)
  /-- `.gap N`. -/
  | gap (n : Nat)
  /-- `.rst`: `rst` for one cycle. -/
  | rst
  deriving DecidableEq, Repr

/-- The running position of the notation: pitch, width, the previous beat's span, and the start that a directive
forces on the next beat. -/
structure StimPos where
  pitch : Nat
  width : Nat
  prev : Option (Nat × Nat)
  forced : Option Nat
  deriving DecidableEq, Repr

/-- Initially `.pitch 10 8`; there is no previous beat. -/
def StimPos.initial : StimPos := ⟨10, 8, none, none⟩

/-- Where the next beat starts: where a directive puts it, else one pitch after the previous beat's start, else 0. -/
def StimPos.start (p : StimPos) : Nat :=
  match p.forced, p.prev with
  | some t, _ => t
  | none, some (s, _) => s + p.pitch
  | none, none => 0

/-- The position after a beat with span `s..e`. -/
def StimPos.after (p : StimPos) (s e : Nat) : StimPos := { p with prev := some (s, e), forced := none }

/-- A presented beat. -/
def beatDrive (u : UnitId) (v : Byte) (s e : Nat) : Drive :=
  ⟨u, false, true, ⟨v, BitVec.ofNat 64 s, BitVec.ofNat 64 e⟩⟩

/-- The clock edges that a stimulus makes the host drive at unit `u`. -/
def stimDrives (u : UnitId) : StimPos → List StimItem → List Drive
  | _, [] => []
  | p, .byte v :: rest =>
    beatDrive u v p.start (p.start + p.width) :: stimDrives u (p.after p.start (p.start + p.width)) rest
  | p, .span v s e :: rest => beatDrive u v s e :: stimDrives u (p.after s e) rest
  | p, .pitch q w :: rest => stimDrives u { p with pitch := q, width := w } rest
  | p, .at t :: rest => stimDrives u { p with forced := some t } rest
  | p, .gap n :: rest => stimDrives u { p with forced := some ((p.prev.map Prod.snd).getD 0 + n) } rest
  | p, .rst :: rest => ⟨u, true, false, noBeat⟩ :: stimDrives u p rest

/-! ## Macros (R100), as the bytes they expand to -/

/-- `SYNC`. -/
def macroSync (c : Config) : List Byte := List.replicate c.syncRunLen.toNat c.syncByte

/-- `W v`: `v[7:0]`, `v[15:8]`. -/
def macroWord (v : Half) : List Byte := [v.extractLsb' 0 8, v.extractLsb' 8 8]

/-- `HDR a, c`. -/
def macroHdr (a c : Half) : List Byte := macroWord a ++ macroWord c

/-- `REC a, v0, ..., v(n-1)`: a header that announces `2n` bytes, then the words. -/
def macroRec (a : Half) (vs : List Half) : List Byte :=
  macroHdr a (BitVec.ofNat 16 (2 * vs.length)) ++ (vs.map macroWord).flatten

/-- `FRAME a, t, [p0, ..., p(n-1)], c`. -/
def macroFrame (a t : Byte) (payload : List Byte) (c : Byte) : List Byte :=
  a :: t :: BitVec.ofNat 8 payload.length :: (payload ++ [c])

/-- A stimulus of bytes at the running position. -/
def stimBytes (vs : List Byte) : List StimItem := vs.map StimItem.byte

end Sys2Proof.Machine
end

