-- ==== Sys2Proof/Safety.lean ====
section
/-! DEFINITION. What claims about the machine are stated in: the invariants of the spec, the frame of each unit, runs of
steps, and the rules' own tables. Nothing here is called by a meaning. -/

namespace Sys2Proof.Machine

open Host (Outcome)

/-! ## Invariants -/

/-- The invariants (a) to (d) of unit SS (spec/10_state.md R29). -/
abbrev SsInv (c : Config) (r : SsRegs) : Prop :=
  r.state ≠ SsCode.unused ∧
  r.run.toNat < c.syncRunLen.toNat ∧
  (r.countNeg = true → r.state = SsCode.dataLow ∨ r.state = SsCode.dataHigh) ∧
  (r.state = SsCode.addrHigh → r.address.toNat < 256) ∧
  (r.state = SsCode.countHigh → r.count.toNat < 256 ∧ r.countNeg = false) ∧
  (r.state = SsCode.dataHigh → r.value.toNat < 256)

/-- The invariants (a) to (d) and (f) of unit FB (spec/10_state.md R50), and the canonical form of `PL`. Of (d) this says
that the entries the frame event reads have been written; that they were written in the same frame is what
`Obligations.ResettingGapForgetsTheFrame` says. -/
abbrev FbInv (r : FbRegs) (pl : Memory) : Prop :=
  (r.state = FbCode.sync ∨ r.state = FbCode.waitAddress ∨ r.state = FbCode.waitMsgType ∨
    r.state = FbCode.waitDataLength ∨ r.state = FbCode.waitChecksum) ∧
  (r.state = FbCode.sync ∨ r.state = FbCode.waitAddress ∨ r.state = FbCode.waitMsgType → r.plCount = 0#8) ∧
  (r.state = FbCode.waitDataLength → 1#8 ≤ r.dataLength ∧ r.plCount < r.dataLength) ∧
  (r.state = FbCode.waitChecksum → r.plCount = r.dataLength) ∧
  (∀ i < r.plCount.toNat, (pl.written? i).isSome = true) ∧
  (∀ e ∈ pl, e.1 ≤ 254) ∧
  pl.wf = true

/-- What holds in every state reachable from reset: the run length is legal, and both units' invariants. -/
abbrev State.Inv (s : State) : Prop :=
  s.cfg.runLenLegal = true ∧ SsInv s.cfg s.ss.regs ∧ FbInv s.fb.regs s.fb.pl

/-! ## Frames and outputs of one clock edge -/

/-- Only unit SS has moved. -/
def SsLocal (s t : State) : Prop := t.cfg = s.cfg ∧ t.fb = s.fb ∧ t.input = s.input

/-- Only unit FB has moved. -/
def FbLocal (s t : State) : Prop := t.cfg = s.cfg ∧ t.ss = s.ss ∧ t.input = s.input

/-- Unit SS puts out `ev` and `dg` at this edge, at its ports and in its record, and nothing else. -/
def SsPuts (s t : State) (ev : Option Event) (dg : Option Diag) : Prop :=
  t.ss.evPort = ev ∧ t.ss.dgPort = dg ∧
  t.ss.events = s.ss.events ++ ev.toList ∧ t.ss.diags = s.ss.diags ++ dg.toList

/-- Unit FB puts out `gap`, then `ev`, and `dg` at this edge, at its ports and in its record, and nothing else. -/
def FbPuts (s t : State) (gap ev : Option Event) (dg : Option Diag) : Prop :=
  t.fb.gapPort = gap ∧ t.fb.evPort = ev ∧ t.fb.dgPort = dg ∧
  t.fb.events = s.fb.events ++ gap.toList ++ ev.toList ∧ t.fb.diags = s.fb.diags ++ dg.toList

/-- What the sync pattern matcher does to `ss.run` and `ss.sync_start` at beat `b` (spec/40_sync_stream_ops.md R110). A
sum that does not fit the register, which no reachable state gives, wraps to its width (log 8). -/
def SyncMatcherRule (c : Config) (b : Beat) (r r' : SsRegs) : Prop :=
  (b.byte ≠ c.syncByte → r'.run = 0#8 ∧ r'.syncStart = r.syncStart) ∧
  (b.byte = c.syncByte →
    r'.syncStart = (if ssRun c r = 0 then b.ss else r.syncStart) ∧
    (ssRun c r + 1 = c.syncRunLen.toNat → r'.run = 0#8) ∧
    (ssRun c r + 1 ≠ c.syncRunLen.toNat → r'.run = BitVec.ofNat 8 ((ssRun c r + 1) % 2 ^ runWidth c)))

/-- A beat of unit SS is done: the matcher's rule for `ss.run` and `ss.sync_start`, every other register as in `r`, the
outputs `ev` and `dg`, and nothing outside the unit. -/
def SsBeatDone (s t : State) (b : Beat) (r : SsRegs) (ev : Option Event) (dg : Option Diag) : Prop :=
  SsLocal s t ∧ SyncMatcherRule s.cfg b s.ss.regs t.ss.regs ∧
  t.ss.regs = { r with run := t.ss.regs.run, syncStart := t.ss.regs.syncStart } ∧ SsPuts s t ev dg

/-- A clock edge of unit FB is done: every register as in `r`, the outputs `gap`, `ev` and `dg`, and nothing outside the
unit. (What became of `PL` is said beside it.) -/
def FbEdgeDone (s t : State) (r : FbRegs) (gap ev : Option Event) (dg : Option Diag) : Prop :=
  FbLocal s t ∧ t.fb.regs = r ∧ FbPuts s t gap ev dg

/-- `word = b0 + 256 * b1` (spec/30_encoding.md R83), the first byte given by the low byte of a register. -/
def wordOf (low : Nat) (high : Byte) : Half := BitVec.ofNat 16 (low % 256 + 256 * high.toNat)

/-- The gap as a natural number: `max(0, in.ss - fb.last_end)` (spec/41_framed_bus_ops.md R153). -/
def gapNat (r : FbRegs) (b : Beat) : Nat := b.ss.toNat - r.lastEnd.toNat

/-- A beat presented to unit SS. -/
def ssBeat (b : Beat) : Drive := ⟨.ss, false, true, b⟩

/-- A beat presented to unit FB. -/
def fbBeat (b : Beat) : Drive := ⟨.fb, false, true, b⟩

/-- The next clock edge is one at which unit `u` consumes the beat `b`. -/
def nextBeatIs (s : State) (u : UnitId) (b : Beat) : Prop := nextDrive s = ⟨u, false, true, b⟩

/-! ## Runs -/

/-- `n` steps, stopping at the first fault or refusal. -/
def steps : Nat → State → Outcome State Fault Refusal
  | 0, s => .next s
  | n + 1, s =>
    match step s with
    | .next t => steps n t
    | .fault f => .fault f
    | .refused r => .refused r

/-- `s` with the field of `ss.run` at `v`. -/
def State.withRun (s : State) (v : BitVec 8) : State :=
  { s with ss := { s.ss with regs := { s.ss.regs with run := v } } }

/-- No beat of the list completes a sync run, the run counter standing at `run` before the first
(spec/40_sync_stream_ops.md R110). -/
def NoSyncHit (c : Config) : Nat → List Beat → Prop
  | _, [] => True
  | run, b :: bs =>
    (b.byte = c.syncByte → run + 1 ≠ c.syncRunLen.toNat) ∧
    NoSyncHit c (if b.byte = c.syncByte then run + 1 else 0) bs

/-! ## The pins, by event kind -/

/-- The diagnostic pins, by diagnostic (spec/60_exceptions.md R171). -/
def DiagPins (dg : Option Diag) (valid : Bool) (code : BitVec 2) : Prop :=
  (dg = none → valid = false ∧ code = 0#2) ∧
  (dg = some .escape → valid = true ∧ code = 1#2) ∧
  (dg = some .gapReset → valid = true ∧ code = 2#2) ∧
  (dg = some .countUnderrun → valid = true ∧ code = 3#2)

/-- The event pins of unit SS show one event. -/
def SsEventPins (p : SsPins) (kind : BitVec 4) (ss es : Offset) (addr data : Half) (esc : Bool) : Prop :=
  p.evValid = true ∧ p.evKind = kind ∧ p.evSs = ss ∧ p.evEs = es ∧ p.evAddr = addr ∧ p.evData = data ∧ p.evEsc = esc

/-- The event pins of unit SS, by event kind (spec/30_encoding.md R86, R92). -/
def SsPortPins (port : Option Event) (p : SsPins) : Prop :=
  (port = none → p.evValid = false ∧ p.evKind = 0#4) ∧
  (∀ ss es, port = some (.ssSync ss es) → SsEventPins p 1#4 ss es 0#16 0#16 false) ∧
  (∀ ss es a esc, port = some (.ssAddr ss es a esc) → SsEventPins p 2#4 ss es a 0#16 esc) ∧
  (∀ ss es c, port = some (.ssCount ss es c) → SsEventPins p 3#4 ss es 0#16 c false) ∧
  (∀ ss es a v, port = some (.ssWrite ss es a v) → SsEventPins p 4#4 ss es a v false)

/-- The status and diagnostic pins of unit SS (spec/10_state.md R55, spec/60_exceptions.md R171). -/
def SsSidePins (u : SsUnit) (p : SsPins) : Prop :=
  p.stState = u.regs.state ∧ p.stCountNeg = u.regs.countNeg ∧ DiagPins u.dgPort p.dgValid p.dgCode

/-- The event pins of unit FB show one event. -/
def FbEventPins (p : FbPins) (kind : BitVec 4) (ss es : Offset) (byte : Byte) : Prop :=
  p.evValid = true ∧ p.evKind = kind ∧ p.evSs = ss ∧ p.evEs = es ∧ p.evByte = byte

/-- The gap pins of unit FB (spec/30_encoding.md R93). -/
def FbGapPins (port : Option Event) (p : FbPins) : Prop :=
  (port = none → p.gapValid = false) ∧
  (∀ ss es d, port = some (.fbGap ss es d) → p.gapValid = true ∧ p.gapSs = ss ∧ p.gapEs = es ∧ p.gapDur = d)

/-- The event and frame pins of unit FB, by event kind (spec/30_encoding.md R86, R93). -/
def FbPortPins (port : Option Event) (p : FbPins) : Prop :=
  (port = none → p.evValid = false ∧ p.evKind = 0#4) ∧
  (∀ ss es v, port = some (.fbAddr ss es v) → FbEventPins p 9#4 ss es v) ∧
  (∀ ss es v, port = some (.fbMsgType ss es v) → FbEventPins p 10#4 ss es v) ∧
  (∀ ss es v, port = some (.fbDataLen ss es v) → FbEventPins p 11#4 ss es v) ∧
  (∀ ss es n, port = some (.fbPayload ss es n) → FbEventPins p 12#4 ss es n) ∧
  (∀ ss es a m n payload ck, port = some (.fbFrame ss es a m n payload ck) →
    FbEventPins p 13#4 ss es ck ∧
    p.frAddress = a ∧ p.frMsgType = m ∧ p.frDataLength = n ∧ p.frChecksum = ck)

/-- The status and diagnostic pins of unit FB (spec/10_state.md R55, spec/60_exceptions.md R171). -/
def FbSidePins (u : FbUnit) (p : FbPins) : Prop :=
  p.stState = u.regs.state ∧ p.stPlCount = u.regs.plCount ∧ DiagPins u.dgPort p.dgValid p.dgCode

/-! ## The countdown as an integer -/

/-- `ss.count` and `ss.count_neg` represent the integer `n` (spec/40_sync_stream_ops.md R120). -/
def CountdownIs (r : SsRegs) (n : Int) : Prop :=
  r.count = BitVec.ofInt 16 n ∧ (r.countNeg = true ↔ n < 0)

/-- A data word is due and the countdown cannot be zero when a word ends: at a low byte it is negative, zero or odd, at a
high byte negative or even (spec/40_sync_stream_ops.md R120 (b), (c)). -/
def RecordStuck (r : SsRegs) : Prop :=
  (r.state = SsCode.dataLow ∧ (r.countNeg = true ∨ r.count = 0#16 ∨ r.count.toNat % 2 = 1)) ∨
  (r.state = SsCode.dataHigh ∧ (r.countNeg = true ∨ r.count.toNat % 2 = 0))

/-- The WriteRecords of a record's data words, each given by its two beats, from address `a` on
(spec/30_encoding.md R82). -/
def recordWrites : Half → List (Beat × Beat) → List Event
  | _, [] => []
  | a, (lo, hi) :: ws => .ssWrite lo.ss hi.es a (wordOf lo.byte.toNat hi.byte) :: recordWrites (a + 2#16) ws

/-- The beats of a record's data words, in order. -/
def recordBeats : List (Beat × Beat) → List Beat
  | [] => []
  | (lo, hi) :: ws => lo :: hi :: recordBeats ws

/-- The event is a SyncEvent. -/
def Event.isSync : Event → Bool
  | .ssSync _ _ => true
  | _ => false

/-! ## The next-state tables -/

/-- The kind code an event port shows: `NONE` when not valid. -/
def portKind (p : Option Event) : BitVec 4 := (p.map Event.kindCode).getD 0#4

/-- The `esc` field an event port shows. -/
def portEsc (p : Option Event) : Bool := (p.map Event.escPin).getD false

/-- The table of spec/40_sync_stream_ops.md R121 for a beat: next state, event kind, `esc`; `none` for the fault row. -/
def ssTable (c : Config) (r : SsRegs) (b : Beat) : Option (StateCode × BitVec 4 × Bool) :=
  if b.byte = c.syncByte ∧ ssRun c r + 1 = c.syncRunLen.toNat then some (SsCode.addrLow, 1#4, false)
  else
    match r.state.toNat with
    | 0 => some (SsCode.awaitSync, 0#4, false)
    | 1 => some (SsCode.addrHigh, 0#4, false)
    | 2 =>
      if wordOf r.address.toNat b.byte = c.escAddr then some (SsCode.awaitSync, 2#4, true)
      else some (SsCode.countLow, 2#4, false)
    | 3 => some (SsCode.countHigh, 0#4, false)
    | 4 => some (SsCode.dataLow, 3#4, false)
    | 5 => some (SsCode.dataHigh, 0#4, false)
    | 6 => if r.count = 1#16 ∧ r.countNeg = false then some (SsCode.addrLow, 4#4, false)
           else some (SsCode.dataLow, 4#4, false)
    | _ => none

/-- The table of spec/41_framed_bus_ops.md R152 for a beat: next state, whether `FB_GAP` is put out, the kind of the
other event; `none` for the fault rows. The two rows of `WAIT_DATALENGTH` have `fb.pl_count < fb.data_length`. -/
def fbTable (c : Config) (r : FbRegs) (b : Beat) : Option (StateCode × Bool × BitVec 4) :=
  if r.lastValid = true ∧ c.gapResetThreshold.toNat ≤ gapNat r b then
    some (FbCode.waitAddress, decide (gapNat r b < c.gapNoiseCeiling.toNat), 9#4)
  else
    match r.state.toNat with
    | 0 => some (FbCode.waitAddress, false, 9#4)
    | 1 => some (FbCode.waitMsgType, false, 10#4)
    | 2 => if b.byte = 0#8 then some (FbCode.waitChecksum, false, 11#4)
           else some (FbCode.waitDataLength, false, 11#4)
    | 3 => if r.plCount.toNat + 1 = r.dataLength.toNat then some (FbCode.waitChecksum, false, 12#4)
           else some (FbCode.waitDataLength, false, 0#4)
    | 5 => if r.address = 0#8 then some (FbCode.sync, false, 13#4)
           else some (FbCode.waitChecksum, false, 13#4)
    | _ => none

/-! ## Frames on the bus -/

/-- No beat of the list follows the one before it, or the byte that ended at `last` if `valid`, by a resetting gap
(spec/41_framed_bus_ops.md R141). -/
def NoResettingGap (c : Config) : Bool → Offset → List Beat → Prop
  | _, _, [] => True
  | valid, last, b :: bs =>
    (valid = true → b.ss.toNat - last.toNat < c.gapResetThreshold.toNat) ∧ NoResettingGap c true b.es bs

/-- The payload-span event of a payload's beats: none for an empty payload (spec/41_framed_bus_ops.md R146, R147). -/
def payloadSpan (length : Byte) (ps : List Beat) : List Event :=
  match ps.head?, ps.getLast? with
  | some f, some l => [.fbPayload f.ss l.es length]
  | _, _ => []

/-- `s` with unit FB's registers as after a reset but for `fb.last_end` and `fb.last_valid`, and any payload buffer
(spec/41_framed_bus_ops.md R154). -/
def State.freshFb (s : State) (pl : Memory) : State :=
  { s with
    fb :=
      { s.fb with
        regs := { FbRegs.reset with lastEnd := s.fb.regs.lastEnd, lastValid := s.fb.regs.lastValid }
        pl := pl } }

end Sys2Proof.Machine
end

