-- ==== Sys2Proof/Certificates/Slice0/Obligations.lean ====
section
/-! DEFINITION. The statements for the provers. Each docstring names the rule of spec/ it comes from; where a clause
rests on a choice of the model, it names the log entry. -/

open Sys2Proof Sys2Proof.Machine

/-! ## Encoding -/

/-- Decoding the encoding of a well-formed instruction gives it back, with the bytes after it: no operand and no
dispatch bit is dropped (30_encoding.md R80, R88, R89). The byte layout is the model's (log 4). -/
def Obligations.DecodeEncodeRoundTrip : Prop :=
  ∀ (i : Instr) (rest : List Byte), i.wellFormed = true → decode (encode i ++ rest) = .ok (i, rest)

/-- What the decoder accepts is a well-formed instruction's own encoding: each byte string has one meaning (log 4). -/
def Obligations.DecodedBytesAreTheEncoding : Prop :=
  ∀ (bs : List Byte) (i : Instr) (rest : List Byte),
    decode bs = .ok (i, rest) → i.wellFormed = true ∧ bs = encode i ++ rest

/-- The dispatch words of a few instructions, written out from the tables of 30_encoding.md R88 and R89 in the model's
byte layout (log 4), decode to them. -/
def Obligations.SpecWordsDecode : Prop :=
  decodeTableWord 8 0x20 = some (.ssReset false false 0#3) ∧
  decodeTableWord 8 0x1E = some (.ssSync 6#3 noBeat) ∧
  decodeTableWord 8 0x12 = some (.ssAddrHi noBeat) ∧
  decodeTableWord 8 0x17 = some (.ssIllegal noBeat) ∧
  decodeTableWord 8 0x5D = some (.fbGapAddr 5#3 noBeat) ∧
  decodeTableWord 8 0x55 = some (.fbChecksum noBeat) ∧
  decodeTableWord 8 0x57 = some (.fbIllegal 7#3 noBeat)

/-- 30_encoding.md R88 (decision D5): the fields of `K_ss`, the rows with their match and mask, that each of the 64
words lies in exactly one row, and that a clock edge of unit SS runs an operation of the row its word lies in (but for
the refusal of log 7). -/
def Obligations.SsDispatchWordAndRows : Prop :=
  (∀ (s : State) (d : Drive), d.unit = .ss →
    (dispatchWord s d).getLsbD 5 = d.rst ∧
    (dispatchWord s d).getLsbD 4 = d.inValid ∧
    ((dispatchWord s d).getLsbD 3 = true ↔
      d.beat.byte = s.cfg.syncByte ∧ ssRun s.cfg s.ss.regs + 1 = s.cfg.syncRunLen.toNat) ∧
    (dispatchWord s d).extractLsb' 0 3 = s.ss.regs.state) ∧
  ssRows.map (fun r => (r.mnemonic, r.pattern, r.mask)) =
    [("SS.RESET", 0x20#6, 0x20#6), ("SS.NOP", 0x00#6, 0x30#6), ("SS.SYNC", 0x18#6, 0x38#6),
     ("SS.IDLE", 0x10#6, 0x3F#6), ("SS.ADDR_LO", 0x11#6, 0x3F#6), ("SS.ADDR_HI", 0x12#6, 0x3F#6),
     ("SS.CNT_LO", 0x13#6, 0x3F#6), ("SS.CNT_HI", 0x14#6, 0x3F#6), ("SS.DATA_LO", 0x15#6, 0x3F#6),
     ("SS.DATA_HI", 0x16#6, 0x3F#6), ("SS.ILLEGAL", 0x17#6, 0x3F#6)] ∧
  (∀ k : DispatchWord, (ssRows.filter (fun r => r.accepts k)).length = 1) ∧
  ∀ s : State, (nextDrive s).unit = .ss → runLenUnusable s = false →
    ∃ r ∈ ssRows, r.accepts (dispatchWord s (nextDrive s)) = true ∧
      ∃ i : Instr, i.mnemonic = r.mnemonic ∧ i.dispatch = dispatchWord s (nextDrive s) ∧ step s = exec i s.consume

/-- 30_encoding.md R89 (decision D5): the fields of `K_fb` (no gap before the first byte, decision D15; the gap a
saturating difference, 41_framed_bus_ops.md R153, decision D16), the rows with their match and mask, that each of the 64
words lies in exactly one row, and that a clock edge of unit FB runs an operation of the row its word lies in. -/
def Obligations.FbDispatchWordAndRows : Prop :=
  (∀ (s : State) (d : Drive), d.unit = .fb →
    (dispatchWord s d).getLsbD 5 = d.rst ∧
    (dispatchWord s d).getLsbD 4 = d.inValid ∧
    ((dispatchWord s d).getLsbD 3 = true ↔
      s.fb.regs.lastValid = true ∧
      s.cfg.gapResetThreshold.toNat ≤ d.beat.ss.toNat - s.fb.regs.lastEnd.toNat) ∧
    (dispatchWord s d).extractLsb' 0 3 = s.fb.regs.state) ∧
  fbRows.map (fun r => (r.mnemonic, r.pattern, r.mask)) =
    [("FB.RESET", 0x20#6, 0x20#6), ("FB.NOP", 0x00#6, 0x30#6), ("FB.GAP_ADDR", 0x18#6, 0x38#6),
     ("FB.ADDR", 0x10#6, 0x3F#6), ("FB.MSGTYPE", 0x11#6, 0x3F#6), ("FB.DATALEN", 0x12#6, 0x3F#6),
     ("FB.PAYLOAD", 0x13#6, 0x3F#6), ("FB.WAIT_DATA", 0x14#6, 0x3F#6), ("FB.CHECKSUM", 0x15#6, 0x3F#6),
     ("FB.ILLEGAL", 0x16#6, 0x3E#6)] ∧
  (∀ k : DispatchWord, (fbRows.filter (fun r => r.accepts k)).length = 1) ∧
  ∀ s : State, (nextDrive s).unit = .fb → runLenUnusable s = false →
    ∃ r ∈ fbRows, r.accepts (dispatchWord s (nextDrive s)) = true ∧
      ∃ i : Instr, i.mnemonic = r.mnemonic ∧ i.dispatch = dispatchWord s (nextDrive s) ∧ step s = exec i s.consume

/-! ## The step -/

/-- When the fetched bytes decode to an instruction, the step is that instruction run on the state with the clock edge
consumed; the step adds nothing else around it. The bytes and the input list are the model's choice (logs 4 and 1), and
the hypothesis leaves out the refusal of log 7. -/
def Obligations.StepRunsTheDecodedInstruction : Prop :=
  ∀ (s : State) (i : Instr) (rest : List Byte), runLenUnusable s = false →
    decode (fetchBytes s) = .ok (i, rest) → step s = exec i s.consume

/-- Every clock edge, but one that log 7 refuses, performs exactly the instruction of its unit, its dispatch word and,
when it consumes one, its beat (30_encoding.md R88, R89). That the fetched bytes are that instruction's is about the model's
own layout (log 4). -/
def Obligations.EveryEdgePerformsItsDispatchWord : Prop :=
  ∀ s : State, runLenUnusable s = false →
    ∃ i : Instr, i.wellFormed = true ∧
      i.unit = (nextDrive s).unit ∧
      i.dispatch = dispatchWord s (nextDrive s) ∧
      i.beat? = (if (nextDrive s).rst = false ∧ (nextDrive s).inValid = true then some (nextDrive s).beat else none) ∧
      fetchBytes s = encode i ∧
      step s = exec i s.consume

/-- A table word placed by `withFetchWord` is what the next step runs (logs 3, 4, 5). -/
def Obligations.PlacedWordIsWhatTheStepRuns : Prop :=
  ∀ (s : State) (nbits w : Nat) (i : Instr), s.cfg.runLenLegal = true → decodeTableWord nbits w = some i →
    step (s.withFetchWord nbits w) = exec i (s.withFetchWord nbits w).consume

/-- A beat of unit SS under a `SYNC_RUN_LEN` outside its legal range is refused by name, whatever else the state holds
(93_implementation_defined.md U15: "refuse"; log 7). -/
def Obligations.IllegalRunLengthIsRefused : Prop :=
  ∀ (s : State) (b : Beat), s.cfg.syncRunLen = 0#8 → nextBeatIs s .ss b →
    step s = .refused .syncRunLenOutOfRange

/-! ## The operations of unit SS

Where a statement says what a beat does to `ss.run`, a sum that does not fit the register wraps to its width: no
reachable state gives one, and the wrap is the model's choice (log 8, `SyncMatcherRule`). -/

/-- `SS.RESET` (70_reset_and_hazards.md R200, 10_state.md R59): in every state, whatever the other inputs are, every
register takes its reset value, the ports go to not valid, nothing is emitted. -/
def Obligations.SsResetPutsEveryRegisterAtReset : Prop :=
  ∀ (inValid hit : Bool) (code : StateCode) (s : State), ∃ t,
    exec (.ssReset inValid hit code) s = .next t ∧ SsLocal s t ∧
    t.ss.regs =
      { state := SsCode.awaitSync, run := 0#8, syncStart := 0#64, address := 0#16, count := 0#16,
        countNeg := false, value := 0#16, fieldStart := 0#64 } ∧
    SsPuts s t none none

/-- `SS.NOP` (40_sync_stream_ops.md R119): no register is written, including `ss.run`; no event, no diagnostic; the
event port returns to not valid. -/
def Obligations.SsNopWritesNoRegister : Prop :=
  ∀ (hit : Bool) (code : StateCode) (s : State), ∃ t,
    exec (.ssNop hit code) s = .next t ∧ SsLocal s t ∧ t.ss.regs = s.ss.regs ∧ SsPuts s t none none

/-- `SS.SYNC` (40_sync_stream_ops.md R111): SyncEvent from the first matched byte's start to this byte's end,
accumulators zero, state `ADDR_LOW`, `ss.field_start` unchanged. -/
def Obligations.SsSyncStartsAnEpoch : Prop :=
  ∀ (code : StateCode) (b : Beat) (s : State), ∃ t,
    exec (.ssSync code b) s = .next t ∧ SsLocal s t ∧
    t.ss.regs =
      { state := SsCode.addrLow, run := 0#8,
        syncStart := (if ssRun s.cfg s.ss.regs = 0 then b.ss else s.ss.regs.syncStart),
        address := 0#16, count := 0#16, countNeg := false, value := 0#16,
        fieldStart := s.ss.regs.fieldStart } ∧
    SsPuts s t (some (.ssSync (if ssRun s.cfg s.ss.regs = 0 then b.ss else s.ss.regs.syncStart) b.es)) none

/-- `SS.IDLE` (40_sync_stream_ops.md R112, R110, decision D8): the matcher updates `ss.run` and `ss.sync_start`; no other
register is written; no event (log 8 for a run counter that no reachable state holds). -/
def Obligations.SsIdleRunsTheMatcherOnly : Prop :=
  ∀ (b : Beat) (s : State), (Instr.ssIdle b).dispatch = 0x10#6 ∧ ∃ t,
    exec (.ssIdle b) s = .next t ∧ SsBeatDone s t b s.ss.regs none none

/-- `SS.ADDR_LO` (40_sync_stream_ops.md R113, decision D11): the byte, zero-extended, in `ss.address`; the field's start
remembered; state `ADDR_HIGH`; no event. -/
def Obligations.SsAddrLoTakesTheLowByte : Prop :=
  ∀ (b : Beat) (s : State), ∃ t,
    exec (.ssAddrLo b) s = .next t ∧
    SsBeatDone s t b
      { s.ss.regs with
        address := BitVec.ofNat 16 b.byte.toNat, fieldStart := b.ss, state := SsCode.addrHigh }
      none none

/-- `SS.ADDR_HI` (40_sync_stream_ops.md R114, decision D12): the combined address in `ss.address` and in the event; on
`ESC_ADDR` the escape to `AWAIT_SYNC` with `DG_ESCAPE`, otherwise `COUNT_LOW`. -/
def Obligations.SsAddrHiCombinesOrEscapes : Prop :=
  ∀ (b : Beat) (s : State), ∃ t,
    exec (.ssAddrHi b) s = .next t ∧
    (wordOf s.ss.regs.address.toNat b.byte = s.cfg.escAddr →
      SsBeatDone s t b
        { s.ss.regs with address := s.cfg.escAddr, state := SsCode.awaitSync }
        (some (.ssAddr s.ss.regs.fieldStart b.es s.cfg.escAddr true)) (some .escape)) ∧
    (wordOf s.ss.regs.address.toNat b.byte ≠ s.cfg.escAddr →
      SsBeatDone s t b
        { s.ss.regs with address := wordOf s.ss.regs.address.toNat b.byte, state := SsCode.countLow }
        (some (.ssAddr s.ss.regs.fieldStart b.es (wordOf s.ss.regs.address.toNat b.byte) false)) none)

/-- `SS.CNT_LO` (40_sync_stream_ops.md R115, decision D11): the byte, zero-extended, in `ss.count`; `ss.count_neg`
cleared; the field's start remembered; state `COUNT_HIGH`; no event. -/
def Obligations.SsCntLoTakesTheLowByte : Prop :=
  ∀ (b : Beat) (s : State), ∃ t,
    exec (.ssCntLo b) s = .next t ∧
    SsBeatDone s t b
      { s.ss.regs with
        count := BitVec.ofNat 16 b.byte.toNat, countNeg := false, fieldStart := b.ss,
        state := SsCode.countHigh }
      none none

/-- `SS.CNT_HI` (40_sync_stream_ops.md R116, decision D13): the combined count in `ss.count` and in the event, spanning
the two bytes; state `DATA_LOW`, for every count, zero and odd ones too. -/
def Obligations.SsCntHiCombinesTheCount : Prop :=
  ∀ (b : Beat) (s : State), ∃ t,
    exec (.ssCntHi b) s = .next t ∧
    SsBeatDone s t b
      { s.ss.regs with count := wordOf s.ss.regs.count.toNat b.byte, state := SsCode.dataLow }
      (some (.ssCount s.ss.regs.fieldStart b.es (wordOf s.ss.regs.count.toNat b.byte))) none

/-- `SS.DATA_LO` (40_sync_stream_ops.md R117, R120, decisions D9, D11): the byte, zero-extended, in `ss.value`; the
countdown one less; the diagnostic with the first underrun; the field's start remembered; state `DATA_HIGH`. -/
def Obligations.SsDataLoTakesTheLowByte : Prop :=
  ∀ (b : Beat) (s : State), ∃ t,
    exec (.ssDataLo b) s = .next t ∧
    SsBeatDone s t b
      { s.ss.regs with
        value := BitVec.ofNat 16 b.byte.toNat,
        count := BitVec.ofNat 16 (s.ss.regs.count.toNat + 65535),
        countNeg := s.ss.regs.countNeg || decide (s.ss.regs.count.toNat = 0),
        fieldStart := b.ss, state := SsCode.dataHigh }
      none
      (if s.ss.regs.count.toNat = 0 ∧ s.ss.regs.countNeg = false then some .countUnderrun else none)

/-- `SS.DATA_HI` (40_sync_stream_ops.md R118, R120, decisions D9, D10, D13): the combined value in `ss.value` and in the
WriteRecord, which carries the address before the increment; address plus 2 modulo `2^16`; the countdown one less, and
the record ends exactly when it is then zero and never went below. -/
def Obligations.SsDataHiEmitsTheWriteRecord : Prop :=
  ∀ (b : Beat) (s : State), ∃ t,
    exec (.ssDataHi b) s = .next t ∧
    SsBeatDone s t b
      { s.ss.regs with
        value := wordOf s.ss.regs.value.toNat b.byte,
        address := BitVec.ofNat 16 (s.ss.regs.address.toNat + 2),
        count := BitVec.ofNat 16 (s.ss.regs.count.toNat + 65535),
        countNeg := s.ss.regs.countNeg || decide (s.ss.regs.count.toNat = 0),
        state :=
          (if s.ss.regs.count.toNat = 1 ∧ s.ss.regs.countNeg = false then SsCode.addrLow else SsCode.dataLow) }
      (some (.ssWrite s.ss.regs.fieldStart b.es s.ss.regs.address (wordOf s.ss.regs.value.toNat b.byte)))
      (if s.ss.regs.count.toNat = 0 ∧ s.ss.regs.countNeg = false then some .countUnderrun else none)

/-- `SS.ILLEGAL`, `FB.WAIT_DATA` and `FB.ILLEGAL` raise the one fault, with the unit and the state code, in every state
(60_exceptions.md R175, 30_encoding.md R95, R96, decisions D24, D25). -/
def Obligations.UnusedStateCodesFault : Prop :=
  ∀ (code : StateCode) (b : Beat) (s : State),
    exec (.ssIllegal b) s = .fault (.illegalState .ss s.ss.regs.state) ∧
    exec (.fbWaitData b) s = .fault (.illegalState .fb s.fb.regs.state) ∧
    exec (.fbIllegal code b) s = .fault (.illegalState .fb s.fb.regs.state)

/-! ## The operations of unit FB -/

/-- `FB.RESET` (70_reset_and_hazards.md R200, 10_state.md R59): in every state, whatever the other inputs are, every
register takes its reset value, the ports go to not valid, nothing is emitted, `PL` is not cleared. -/
def Obligations.FbResetPutsEveryRegisterAtReset : Prop :=
  ∀ (inValid g : Bool) (code : StateCode) (s : State), ∃ t,
    exec (.fbReset inValid g code) s = .next t ∧
    FbEdgeDone s t
      { state := FbCode.sync, address := 0#8, msgType := 0#8, dataLength := 0#8, checksum := 0#8, plCount := 0#8,
        plStart := 0#64, frameStart := 0#64, lastEnd := 0#64, lastValid := false }
      none none none ∧
    t.fb.pl = s.fb.pl

/-- `FB.NOP` (41_framed_bus_ops.md R149): no register is written, including `fb.last_end`; no event; the ports return to
not valid. -/
def Obligations.FbNopWritesNoRegister : Prop :=
  ∀ (g : Bool) (code : StateCode) (s : State), ∃ t,
    exec (.fbNop g code) s = .next t ∧ FbEdgeDone s t s.fb.regs none none none ∧ t.fb.pl = s.fb.pl

/-- `FB.GAP_ADDR` (41_framed_bus_ops.md R144, R141, decisions D16, D17): frame reset with its diagnostic, the gap event
when the gap is below the ceiling, then the byte as a frame address; in every state. -/
def Obligations.FbGapAddrResetsThenTakesTheAddress : Prop :=
  ∀ (code : StateCode) (b : Beat) (s : State),
    (Instr.fbGapAddr code b).dispatch &&& 0x38#6 = 0x18#6 ∧ ∃ t,
    exec (.fbGapAddr code b) s = .next t ∧
    FbEdgeDone s t
      { s.fb.regs with
        state := FbCode.waitAddress, plCount := 0#8, address := b.byte, frameStart := b.ss,
        lastEnd := b.es, lastValid := true }
      (if gapNat s.fb.regs b < s.cfg.gapNoiseCeiling.toNat then
        some (.fbGap s.fb.regs.lastEnd b.ss (BitVec.ofNat 64 (gapNat s.fb.regs b))) else none)
      (some (.fbAddr b.ss b.es b.byte)) (some .gapReset) ∧
    t.fb.pl = s.fb.pl

/-- `FB.ADDR` (41_framed_bus_ops.md R143, with the offset update of R150): the byte, whatever it is, is the frame's
address. -/
def Obligations.FbAddrTakesTheAddress : Prop :=
  ∀ (b : Beat) (s : State), (Instr.fbAddr b).dispatch = 0x10#6 ∧ ∃ t,
    exec (.fbAddr b) s = .next t ∧
    FbEdgeDone s t
      { s.fb.regs with
        address := b.byte, frameStart := b.ss, state := FbCode.waitAddress, lastEnd := b.es, lastValid := true }
      none (some (.fbAddr b.ss b.es b.byte)) none ∧
    t.fb.pl = s.fb.pl

/-- `FB.MSGTYPE` (41_framed_bus_ops.md R145, with the offset update of R150): the byte, whatever it is, is the message
type. -/
def Obligations.FbMsgTypeTakesTheMessageType : Prop :=
  ∀ (b : Beat) (s : State), (Instr.fbMsgType b).dispatch = 0x11#6 ∧ ∃ t,
    exec (.fbMsgType b) s = .next t ∧
    FbEdgeDone s t
      { s.fb.regs with msgType := b.byte, state := FbCode.waitMsgType, lastEnd := b.es, lastValid := true }
      none (some (.fbMsgType b.ss b.es b.byte)) none ∧
    t.fb.pl = s.fb.pl

/-- `FB.DATALEN` (41_framed_bus_ops.md R146, 90_conflicts.md C3, decision D20): the byte is the data length; a zero
length goes straight to `WAIT_CHECKSUM`, with no payload event. -/
def Obligations.FbDataLenTakesTheLength : Prop :=
  ∀ (b : Beat) (s : State), ∃ t,
    exec (.fbDataLen b) s = .next t ∧
    FbEdgeDone s t
      { s.fb.regs with
        dataLength := b.byte,
        state := (if b.byte.toNat = 0 then FbCode.waitChecksum else FbCode.waitDataLength),
        lastEnd := b.es, lastValid := true }
      none (some (.fbDataLen b.ss b.es b.byte)) none ∧
    t.fb.pl = s.fb.pl

/-- `FB.PAYLOAD` (41_framed_bus_ops.md R147, decision D21): while fewer bytes than announced are appended, the byte goes
to `PL[fb.pl_count]` and to no other entry, and the completing byte emits the span event and goes to `WAIT_CHECKSUM`;
otherwise nothing is appended, and the span event and the state change happen only when the count equals the length. -/
def Obligations.FbPayloadAppendsTheByte : Prop :=
  ∀ (b : Beat) (s : State), ∃ t,
    exec (.fbPayload b) s = .next t ∧
    (s.fb.regs.plCount.toNat < s.fb.regs.dataLength.toNat →
      FbEdgeDone s t
        { s.fb.regs with
          plStart := (if s.fb.regs.plCount.toNat = 0 then b.ss else s.fb.regs.plStart),
          plCount := BitVec.ofNat 8 (s.fb.regs.plCount.toNat + 1),
          state :=
            (if s.fb.regs.plCount.toNat + 1 = s.fb.regs.dataLength.toNat then FbCode.waitChecksum
             else s.fb.regs.state),
          lastEnd := b.es, lastValid := true }
        none
        (if s.fb.regs.plCount.toNat + 1 = s.fb.regs.dataLength.toNat then
          some (.fbPayload (if s.fb.regs.plCount.toNat = 0 then b.ss else s.fb.regs.plStart) b.es
            s.fb.regs.dataLength) else none)
        none ∧
      t.fb.pl.read s.fb.regs.plCount.toNat = b.byte ∧
      ∀ a : Nat, a ≠ s.fb.regs.plCount.toNat → t.fb.pl.read a = s.fb.pl.read a) ∧
    (s.fb.regs.plCount.toNat = s.fb.regs.dataLength.toNat →
      FbEdgeDone s t
        { s.fb.regs with state := FbCode.waitChecksum, lastEnd := b.es, lastValid := true }
        none
        (some (.fbPayload (if s.fb.regs.plCount.toNat = 0 then b.ss else s.fb.regs.plStart) b.es
          s.fb.regs.dataLength))
        none ∧
      t.fb.pl = s.fb.pl) ∧
    (s.fb.regs.dataLength.toNat < s.fb.regs.plCount.toNat →
      FbEdgeDone s t { s.fb.regs with lastEnd := b.es, lastValid := true } none none none ∧
      t.fb.pl = s.fb.pl)

/-- `FB.CHECKSUM` (41_framed_bus_ops.md R148, decisions D19, D21, D22): the frame event with the payload by value and
the byte as checksum, nothing checked; a broadcast frame resets the frame, any other leaves `fb.state` unwritten. -/
def Obligations.FbChecksumEmitsTheFrame : Prop :=
  ∀ (b : Beat) (s : State), ∃ t,
    exec (.fbChecksum b) s = .next t ∧
    FbEdgeDone s t
      { s.fb.regs with
        checksum := b.byte,
        state := (if s.fb.regs.address.toNat = 0 then FbCode.sync else s.fb.regs.state),
        plCount := (if s.fb.regs.address.toNat = 0 then 0#8 else s.fb.regs.plCount),
        lastEnd := b.es, lastValid := true }
      none
      (some (.fbFrame s.fb.regs.frameStart b.es s.fb.regs.address s.fb.regs.msgType s.fb.regs.dataLength
        ((List.range s.fb.regs.dataLength.toNat).map s.fb.pl.read) b.byte))
      none ∧
    t.fb.pl = s.fb.pl

/-! ## Rules over all operations -/

/-- 40_sync_stream_ops.md R121: the complete next-state function of unit SS, with the event of each row; and the state
under `in_valid = 0` and under `rst = 1`. -/
def Obligations.SsNextStateIsTheTable : Prop :=
  (∀ (s : State) (b : Beat) (q : StateCode) (kind : BitVec 4) (esc : Bool),
    s.cfg.runLenLegal = true → nextBeatIs s .ss b → ssTable s.cfg s.ss.regs b = some (q, kind, esc) →
    ∃ t, step s = .next t ∧ t.ss.regs.state = q ∧ portKind t.ss.evPort = kind ∧ portEsc t.ss.evPort = esc) ∧
  (∀ (s : State) (b : Beat),
    s.cfg.runLenLegal = true → nextBeatIs s .ss b → ssTable s.cfg s.ss.regs b = none →
    step s = .fault (.illegalState .ss s.ss.regs.state)) ∧
  (∀ (s : State) (b : Beat), nextDrive s = ⟨.ss, false, false, b⟩ →
    ∃ t, step s = .next t ∧ t.ss.regs.state = s.ss.regs.state) ∧
  (∀ (s : State) (v : Bool) (b : Beat), nextDrive s = ⟨.ss, true, v, b⟩ →
    ∃ t, step s = .next t ∧ t.ss.regs.state = SsCode.awaitSync)

/-- 41_framed_bus_ops.md R152: the complete next-state function of unit FB, with the events of each row; and the state
under `in_valid = 0` and under `rst = 1`. The rows of `WAIT_DATALENGTH` are those with `fb.pl_count < fb.data_length`. -/
def Obligations.FbNextStateIsTheTable : Prop :=
  (∀ (s : State) (b : Beat) (q : StateCode) (gap : Bool) (kind : BitVec 4),
    nextBeatIs s .fb b →
    (fbG s.cfg s.fb.regs b = false → s.fb.regs.state = FbCode.waitDataLength →
      s.fb.regs.plCount < s.fb.regs.dataLength) →
    fbTable s.cfg s.fb.regs b = some (q, gap, kind) →
    ∃ t, step s = .next t ∧ t.fb.regs.state = q ∧ portKind t.fb.gapPort = (if gap then 8#4 else 0#4) ∧
      portKind t.fb.evPort = kind) ∧
  (∀ (s : State) (b : Beat), nextBeatIs s .fb b → fbTable s.cfg s.fb.regs b = none →
    step s = .fault (.illegalState .fb s.fb.regs.state)) ∧
  (∀ (s : State) (b : Beat), nextDrive s = ⟨.fb, false, false, b⟩ →
    ∃ t, step s = .next t ∧ t.fb.regs.state = s.fb.regs.state) ∧
  (∀ (s : State) (v : Bool) (b : Beat), nextDrive s = ⟨.fb, true, v, b⟩ →
    ∃ t, step s = .next t ∧ t.fb.regs.state = FbCode.sync)

/-- Which operations put out an event, and that the record of events grows by exactly what the ports show, the gap event
first (40_sync_stream_ops.md R123, 41_framed_bus_ops.md R151, 20_memory.md R70). -/
def Obligations.EventsOfAnEdge : Prop :=
  ∀ (i : Instr) (s t : State), exec i s = .next t →
    (i.unit = .ss →
      t.ss.events = s.ss.events ++ t.ss.evPort.toList ∧ t.ss.diags = s.ss.diags ++ t.ss.dgPort.toList ∧
      (t.ss.evPort = none ↔
        i.mnemonic ∈ ["SS.RESET", "SS.NOP", "SS.IDLE", "SS.ADDR_LO", "SS.CNT_LO", "SS.DATA_LO"])) ∧
    (i.unit = .fb →
      t.fb.events = s.fb.events ++ t.fb.gapPort.toList ++ t.fb.evPort.toList ∧
      t.fb.diags = s.fb.diags ++ t.fb.dgPort.toList ∧
      (t.fb.gapPort ≠ none → i.mnemonic = "FB.GAP_ADDR" ∧ portKind t.fb.evPort = 9#4) ∧
      (t.fb.evPort = none → i.mnemonic ∈ ["FB.RESET", "FB.NOP", "FB.PAYLOAD"]))

/-- Which operation raises which diagnostic, and when (60_exceptions.md R172, R173, R174). -/
def Obligations.DiagnosticCauses : Prop :=
  ∀ (i : Instr) (s t : State), exec i s = .next t →
    (i.unit = .ss →
      (t.ss.dgPort = some .escape ↔
        ∃ b, i = .ssAddrHi b ∧ wordOf s.ss.regs.address.toNat b.byte = s.cfg.escAddr) ∧
      (t.ss.dgPort = some .countUnderrun ↔
        (∃ b, i = .ssDataLo b ∨ i = .ssDataHi b) ∧ s.ss.regs.count = 0#16 ∧ s.ss.regs.countNeg = false) ∧
      t.ss.dgPort ≠ some .gapReset) ∧
    (i.unit = .fb →
      (t.fb.dgPort = some .gapReset ↔ ∃ code b, i = .fbGapAddr code b) ∧
      (t.fb.dgPort ≠ some .gapReset → t.fb.dgPort = none))

/-- 41_framed_bus_ops.md R150: every beat of unit FB updates `fb.last_end` and `fb.last_valid`, whatever the operation,
except one that faults, which leaves no next state. -/
def Obligations.EveryFbBeatUpdatesTheOffset : Prop :=
  ∀ (i : Instr) (b : Beat) (s : State), i.unit = .fb → i.beat? = some b →
    (∃ t, exec i s = .next t ∧ t.fb.regs.lastEnd = b.es ∧ t.fb.regs.lastValid = true) ∨
    exec i s = .fault (.illegalState .fb s.fb.regs.state)

/-- `PL` is written by `FB.PAYLOAD` alone, so the bytes of a frame stay readable at the read port until then
(41_framed_bus_ops.md R155, 20_memory.md R75). -/
def Obligations.OnlyPayloadBeatsWriteTheBuffer : Prop :=
  ∀ (i : Instr) (s t : State), exec i s = .next t → (∀ b, i ≠ .fbPayload b) →
    t.fb.pl = s.fb.pl ∧ ∀ raddr, t.fb.plRdata raddr = s.fb.plRdata raddr

/-- The frame event's payload is what the read port shows after it, entry by entry (20_memory.md R75). -/
def Obligations.FramePayloadIsAtTheReadPort : Prop :=
  ∀ (b : Beat) (s t : State), exec (.fbChecksum b) s = .next t →
    ∃ payload : List Byte,
      t.fb.evPort = some (.fbFrame s.fb.regs.frameStart b.es s.fb.regs.address s.fb.regs.msgType
        s.fb.regs.dataLength payload b.byte) ∧
      payload.length = s.fb.regs.dataLength.toNat ∧
      ∀ raddr : Byte, raddr < s.fb.regs.dataLength → payload[raddr.toNat]? = some (t.fb.plRdata raddr)

/-- The values on unit SS's pins by event kind, and the diagnostic and status pins (30_encoding.md R86, R92, decisions D4,
D6, D7; 60_exceptions.md R171; 10_state.md R55). While an event is at the port its pins are unique; while none is,
`ev_valid` is 0 and `ev_kind` is `NONE`, and the other event pins are free (93_implementation_defined.md U20; log 10). -/
def Obligations.SsPinsShowTheEvent : Prop :=
  (∀ (u : SsUnit) (e : Event), u.evPort = some e → ∃! p : SsPins, u.shows p = true) ∧
  (∀ (u : SsUnit) (p : SsPins), u.evPort = none →
    (u.shows p = true ↔ SsSidePins u p ∧ p.evValid = false ∧ p.evKind = 0#4)) ∧
  ∀ (i : Instr) (s t : State), i.unit = .ss → exec i s = .next t →
    ∀ p : SsPins, t.ss.shows p = true ↔ SsSidePins t.ss p ∧ SsPortPins t.ss.evPort p

/-- The values on unit FB's pins after each of its operations: the gap pins, the event and frame pins by event kind, the
diagnostic and status pins (30_encoding.md R86, R93, decisions D4, D6, D7; 60_exceptions.md R171; 10_state.md R55). Some
pins show them, and they are determined while valid; what is open otherwise is log 10's (U20). -/
def Obligations.FbPinsShowTheEvents : Prop :=
  ∀ (i : Instr) (s t : State), i.unit = .fb → exec i s = .next t →
    (∃ p : FbPins, t.fb.shows p = true) ∧
    (∀ p : FbPins, t.fb.shows p = true ↔
      FbSidePins t.fb p ∧ FbGapPins t.fb.gapPort p ∧ FbPortPins t.fb.evPort p) ∧
    ∀ p q : FbPins, t.fb.shows p = true → t.fb.shows q = true →
      p.gapValid = q.gapValid ∧ p.evValid = q.evValid ∧ p.evKind = q.evKind ∧ p.dgValid = q.dgValid ∧
      p.dgCode = q.dgCode ∧ p.stState = q.stState ∧ p.stPlCount = q.stPlCount ∧
      (p.gapValid = true → p.gapSs = q.gapSs ∧ p.gapEs = q.gapEs ∧ p.gapDur = q.gapDur) ∧
      (p.evValid = true → p.evSs = q.evSs ∧ p.evEs = q.evEs ∧ p.evByte = q.evByte) ∧
      (p.evKind = 13#4 → p.frAddress = q.frAddress ∧ p.frMsgType = q.frMsgType ∧
        p.frDataLength = q.frDataLength ∧ p.frChecksum = q.frChecksum)

/-- No step writes the configuration (10_state.md R54). That a step takes one clock edge off the input list, and leaves
an empty list empty, is the model's choice (logs 1 and 2). -/
def Obligations.StepKeepsTheConfiguration : Prop :=
  ∀ s t : State, step s = .next t → t.cfg = s.cfg ∧ t.input = s.input.tail

/-- What reset leaves: the values of 10_state.md R59, the defaults of R54. -/
def Obligations.ResetStateValues : Prop :=
  State.reset.ss.regs =
    { state := 0#3, run := 0#8, syncStart := 0#64, address := 0#16, count := 0#16, countNeg := false,
      value := 0#16, fieldStart := 0#64 } ∧
  State.reset.fb.regs =
    { state := 0#3, address := 0#8, msgType := 0#8, dataLength := 0#8, checksum := 0#8, plCount := 0#8,
      plStart := 0#64, frameStart := 0#64, lastEnd := 0#64, lastValid := false } ∧
  State.reset.ss.evPort = none ∧ State.reset.ss.dgPort = none ∧
  State.reset.fb.gapPort = none ∧ State.reset.fb.evPort = none ∧ State.reset.fb.dgPort = none ∧
  State.reset.cfg =
    { syncByte := 0x55#8, syncRunLen := 4#8, escAddr := 0x5555#16, gapResetThreshold := 300#64,
      gapNoiseCeiling := 5000#64 }

/-! ## Invariants -/

/-- Reset meets the invariants of 10_state.md R29 and R50. -/
def Obligations.ResetMeetsTheInvariants : Prop := State.reset.Inv

/-- The invariants of 10_state.md R29 and R50, and the canonical form of `PL`, are kept by every step from every state
that has them. -/
def Obligations.EveryStepKeepsTheInvariants : Prop :=
  ∀ s t : State, s.Inv → step s = .next t → t.Inv

/-- No byte is refused and nothing traps: from a state with the invariants every step goes on, and a run of any length
from reset, under any legal configuration and whatever the host drives, meets no fault and no refusal
(60_exceptions.md R170). -/
def Obligations.NoByteIsRefused : Prop :=
  (∀ s : State, s.Inv → ∃ t, step s = .next t) ∧
  ∀ (c : Config) (drives : List Drive) (n : Nat), c.runLenLegal = true →
    ∃ t, steps n { State.reset with cfg := c, input := drives } = .next t

/-- Only `rst` of unit FB clears `fb.last_valid`, and only `rst` of unit SS or a sync hit clears `ss.count_neg`
(70_reset_and_hazards.md R201). -/
def Obligations.WhatClearsTheFlags : Prop :=
  ∀ s t : State, s.Inv → step s = .next t →
    (s.fb.regs.lastValid = true → t.fb.regs.lastValid = false →
      (nextDrive s).unit = .fb ∧ (nextDrive s).rst = true) ∧
    (s.ss.regs.countNeg = true → t.ss.regs.countNeg = false →
      (nextDrive s).unit = .ss ∧
      ((nextDrive s).rst = true ∨
        ((nextDrive s).inValid = true ∧ (nextDrive s).beat.byte = s.cfg.syncByte ∧
          ssRun s.cfg s.ss.regs + 1 = s.cfg.syncRunLen.toNat)))

/-- `ss.run` has the width of 00_scope.md R8: every step keeps its field inside that width, and bits of the field above it
are not there, since a step does the same whatever they hold (10_state.md R22; the field itself is log 8's). -/
def Obligations.RunRegisterHasItsWidth : Prop :=
  (∀ c : Config, runWidth c = max 1 (Nat.clog 2 c.syncRunLen.toNat)) ∧
  (∀ s t : State, step s = .next t → s.ss.regs.run.toNat < 2 ^ runWidth s.cfg →
    t.ss.regs.run.toNat < 2 ^ runWidth t.cfg) ∧
  ∀ (s t : State) (v : BitVec 8), v.toNat % 2 ^ runWidth s.cfg = s.ss.regs.run.toNat % 2 ^ runWidth s.cfg →
    step s = .next t →
    ∃ u, step (s.withRun v) = .next u ∧ u = t.withRun u.ss.regs.run ∧
      u.ss.regs.run.toNat % 2 ^ runWidth t.cfg = t.ss.regs.run.toNat % 2 ^ runWidth t.cfg

/-! ## The countdown -/

/-- `ss.count` with `ss.count_neg` is an unbounded integer countdown: the two count operations load it, each data byte
takes one off, and the record ends at a high byte exactly when it is then zero (40_sync_stream_ops.md R120, decision
D9). -/
def Obligations.CountdownIsAnUnboundedInteger : Prop :=
  (∀ (lo hi : Beat) (s t u : State), exec (.ssCntLo lo) s = .next t → exec (.ssCntHi hi) t = .next u →
    CountdownIs u.ss.regs (lo.byte.toNat + 256 * hi.byte.toNat)) ∧
  (∀ (b : Beat) (s t : State) (n : Int), n ≤ 65535 → CountdownIs s.ss.regs n →
    exec (.ssDataLo b) s = .next t → CountdownIs t.ss.regs (n - 1)) ∧
  (∀ (b : Beat) (s t : State) (n : Int), n ≤ 65535 → CountdownIs s.ss.regs n →
    exec (.ssDataHi b) s = .next t →
    CountdownIs t.ss.regs (n - 1) ∧ (t.ss.regs.state = SsCode.addrLow ↔ n - 1 = 0))

/-- A record whose countdown is past zero, or has the wrong parity, never ends: whatever comes, short of a reset or a
sync hit, unit SS goes on taking data words (40_sync_stream_ops.md R120 (b), (c), 60_exceptions.md R179). -/
def Obligations.StuckRecordNeverEnds : Prop :=
  ∀ s t : State, RecordStuck s.ss.regs → step s = .next t →
    ((nextDrive s).unit = .ss → (nextDrive s).rst = false ∧
      ((nextDrive s).inValid = true → ssHit s.cfg s.ss.regs (nextDrive s).beat = false)) →
    RecordStuck t.ss.regs

/-! ## Headline results -/

/-- A well-formed record in which no beat is a sync hit, fed from `ADDR_LOW`, yields its address event, its count event
and exactly its WriteRecords, at consecutive addresses, and leaves unit SS ready for the next header (30_encoding.md R82,
R94 (b), 40_sync_stream_ops.md R118 (f), R120 (a)). Sync bytes that complete no run are ordinary bytes of it. The run
counter is taken in its range (10_state.md R29 (b)). -/
def Obligations.WellFormedRecordYieldsItsWrites : Prop :=
  ∀ (s : State) (a0 a1 c0 c1 : Beat) (ws : List (Beat × Beat)) (rest : List Drive),
    s.cfg.runLenLegal = true → s.ss.regs.state = SsCode.addrLow →
    s.input = (a0 :: a1 :: c0 :: c1 :: recordBeats ws).map ssBeat ++ rest →
    ssRun s.cfg s.ss.regs < s.cfg.syncRunLen.toNat →
    NoSyncHit s.cfg (ssRun s.cfg s.ss.regs) (a0 :: a1 :: c0 :: c1 :: recordBeats ws) →
    wordOf a0.byte.toNat a1.byte ≠ s.cfg.escAddr →
    ws ≠ [] → c0.byte.toNat + 256 * c1.byte.toNat = 2 * ws.length →
    ∃ t, steps (4 + 2 * ws.length) s = .next t ∧ t.input = rest ∧ t.cfg = s.cfg ∧ t.fb = s.fb ∧
      t.ss.regs.state = SsCode.addrLow ∧ t.ss.regs.count = 0#16 ∧ t.ss.regs.countNeg = false ∧
      t.ss.regs.address = wordOf a0.byte.toNat a1.byte + BitVec.ofNat 16 (2 * ws.length) ∧
      t.ss.events = s.ss.events ++
        .ssAddr a0.ss a1.es (wordOf a0.byte.toNat a1.byte) false ::
        .ssCount c0.ss c1.es (wordOf c0.byte.toNat c1.byte) ::
        recordWrites (wordOf a0.byte.toNat a1.byte) ws ∧
      t.ss.diags = s.ss.diags

/-- An unbroken run of `k * SYNC_RUN_LEN` sync bytes from `ss.run = 0` contains exactly `k` sync hits, whatever the
state operations in between do (40_sync_stream_ops.md R110, 90_conflicts.md C12, decision D8). -/
def Obligations.SyncRunContainsItsHits : Prop :=
  ∀ (s : State) (bs : List Beat) (rest : List Drive) (k : Nat),
    s.cfg.runLenLegal = true → ssRun s.cfg s.ss.regs = 0 → s.ss.regs.state ≠ SsCode.unused →
    s.input = bs.map ssBeat ++ rest → bs.length = k * s.cfg.syncRunLen.toNat →
    (∀ b ∈ bs, b.byte = s.cfg.syncByte) →
    ∃ t, steps bs.length s = .next t ∧ t.input = rest ∧ ssRun t.cfg t.ss.regs = 0 ∧
      t.ss.events.countP Event.isSync = s.ss.events.countP Event.isSync + k

/-- A bus frame fed from `SYNC` with no resetting gap yields exactly its field events, its payload span (none when the
payload is empty) and one BusFrame with the payload in arrival order; a broadcast frame leaves `SYNC`, any other
`WAIT_CHECKSUM` (30_encoding.md R84, 20_memory.md R65, R75, 41_framed_bus_ops.md R143 to R148, decision D19). -/
def Obligations.BusFrameRoundTrip : Prop :=
  ∀ (s : State) (a m n : Beat) (ps : List Beat) (ck : Beat) (rest : List Drive),
    s.fb.regs.state = FbCode.sync → s.fb.regs.plCount = 0#8 →
    s.input = (a :: m :: n :: (ps ++ [ck])).map fbBeat ++ rest →
    NoResettingGap s.cfg s.fb.regs.lastValid s.fb.regs.lastEnd (a :: m :: n :: (ps ++ [ck])) →
    ps.length = n.byte.toNat →
    ∃ t, steps (4 + ps.length) s = .next t ∧ t.input = rest ∧ t.cfg = s.cfg ∧ t.ss = s.ss ∧
      t.fb.regs.state = (if a.byte = 0#8 then FbCode.sync else FbCode.waitChecksum) ∧
      t.fb.events = s.fb.events ++
        [.fbAddr a.ss a.es a.byte, .fbMsgType m.ss m.es m.byte, .fbDataLen n.ss n.es n.byte] ++
        payloadSpan n.byte ps ++
        [.fbFrame a.ss ck.es a.byte m.byte n.byte (ps.map Beat.byte) ck.byte] ∧
      t.fb.diags = s.fb.diags

/-- A bus frame whose address byte arrives after a resetting gap, the usual start after a non-broadcast frame: in every
state, whatever was in progress, it yields the gap event if the gap is below the ceiling, the frame reset's diagnostic,
and then what `Obligations.BusFrameRoundTrip` says (41_framed_bus_ops.md R144 to R148, decisions D16 to D22). -/
def Obligations.BusFrameAfterAResettingGap : Prop :=
  ∀ (s : State) (a m n : Beat) (ps : List Beat) (ck : Beat) (rest : List Drive),
    s.input = (a :: m :: n :: (ps ++ [ck])).map fbBeat ++ rest →
    s.fb.regs.lastValid = true → s.cfg.gapResetThreshold.toNat ≤ gapNat s.fb.regs a →
    NoResettingGap s.cfg true a.es (m :: n :: (ps ++ [ck])) →
    ps.length = n.byte.toNat →
    ∃ t, steps (4 + ps.length) s = .next t ∧ t.input = rest ∧ t.cfg = s.cfg ∧ t.ss = s.ss ∧
      t.fb.regs.state = (if a.byte = 0#8 then FbCode.sync else FbCode.waitChecksum) ∧
      t.fb.events = s.fb.events ++
        (if gapNat s.fb.regs a < s.cfg.gapNoiseCeiling.toNat then
          [.fbGap s.fb.regs.lastEnd a.ss (BitVec.ofNat 64 (gapNat s.fb.regs a))] else []) ++
        [.fbAddr a.ss a.es a.byte, .fbMsgType m.ss m.es m.byte, .fbDataLen n.ss n.es n.byte] ++
        payloadSpan n.byte ps ++
        [.fbFrame a.ss ck.es a.byte m.byte n.byte (ps.map Beat.byte) ck.byte] ∧
      t.fb.diags = s.fb.diags ++ [.gapReset]

/-- After a beat with `g = 1`, unit FB puts out from that beat on exactly what a freshly reset unit with the same
`fb.last_end` and `fb.last_valid` would, whatever frame was in progress and whatever `PL` holds
(41_framed_bus_ops.md R154). -/
def Obligations.ResettingGapForgetsTheFrame : Prop :=
  ∀ (s t : State) (b : Beat) (pl : Memory) (n : Nat),
    nextBeatIs s .fb b → fbG s.cfg s.fb.regs b = true → steps n s = .next t →
    ∃ u, steps n (s.freshFb pl) = .next u ∧ u.ss = t.ss ∧
      u.fb.events = t.fb.events ∧ u.fb.diags = t.fb.diags

/-- The two units do not interfere: what one of them does in a run is what it does when the other's clock edges are taken
out and the other unit holds anything at all (60_exceptions.md R186). The list that interleaves the edges is the model's
(log 1). -/
def Obligations.UnitsDoNotInterfere : Prop :=
  ∀ s t : State, steps s.input.length s = .next t →
    (∀ f : FbUnit, ∃ u,
      steps (s.input.filter (fun d => d.unit == .ss)).length
        { s with fb := f, input := s.input.filter (fun d => d.unit == .ss) } = .next u ∧ u.ss = t.ss) ∧
    (∀ x : SsUnit, ∃ u,
      steps (s.input.filter (fun d => d.unit == .fb)).length
        { s with ss := x, input := s.input.filter (fun d => d.unit == .fb) } = .next u ∧ u.fb = t.fb)

/-- Idle cycles are invisible: taking the cycles without a beat and without `rst` out of a run changes no register, no
entry of `PL`, no event and no diagnostic (40_sync_stream_ops.md R119, 41_framed_bus_ops.md R149,
70_reset_and_hazards.md R210, decision D3). -/
def Obligations.IdleCyclesAreInvisible : Prop :=
  ∀ s t : State, steps s.input.length s = .next t →
    ∃ u, steps (s.input.filter (fun d => d.rst || d.inValid)).length
        { s with input := s.input.filter (fun d => d.rst || d.inValid) } = .next u ∧
      u.ss.regs = t.ss.regs ∧ u.ss.events = t.ss.events ∧ u.ss.diags = t.ss.diags ∧
      u.fb.regs = t.fb.regs ∧ u.fb.pl = t.fb.pl ∧ u.fb.events = t.fb.events ∧ u.fb.diags = t.fb.diags
end

