-- ==== Sys2Proof/Laws/Bytes.lean ====
section
/-! SUPPORT. Fields and bytes: what taking a word apart and putting it together give back. -/

namespace Sys2Proof

section Dispatch

variable (rst inValid sel : Bool) (code : StateCode)

@[simp] theorem dispatchRst_pack : dispatchRst (packDispatch rst inValid sel code) = rst := by
  revert rst inValid sel code; decide

@[simp] theorem dispatchInValid_pack : dispatchInValid (packDispatch rst inValid sel code) = inValid := by
  revert rst inValid sel code; decide

@[simp] theorem dispatchSel_pack : dispatchSel (packDispatch rst inValid sel code) = sel := by
  revert rst inValid sel code; decide

@[simp] theorem dispatchCode_pack : dispatchCode (packDispatch rst inValid sel code) = code := by
  revert rst inValid sel code; decide

end Dispatch

/-- A dispatch word is its four fields. -/
theorem packDispatch_fields (k : DispatchWord) :
    packDispatch (dispatchRst k) (dispatchInValid k) (dispatchSel k) (dispatchCode k) = k := by
  revert k; decide

@[simp] theorem headerByte_bit7 (u : UnitId) (k : DispatchWord) : (headerByte u k)[7] = false := by
  cases u <;> revert k <;> decide

@[simp] theorem headerUnit_headerByte (u : UnitId) (k : DispatchWord) : headerUnit (headerByte u k) = u := by
  cases u <;> revert k <;> decide

@[simp] theorem headerDispatch_headerByte (u : UnitId) (k : DispatchWord) :
    headerDispatch (headerByte u k) = k := by
  cases u <;> revert k <;> decide

/-- A header byte with bit 7 clear is its unit and its dispatch word. -/
theorem headerByte_fields {h : Byte} (h7 : h.getLsbD 7 = false) :
    headerByte (headerUnit h) (headerDispatch h) = h := by
  revert h; decide

/-- The eight bytes of an offset spell it. -/
theorem offsetOfBytes_extract (o : Offset) :
    offsetOfBytes (o.extractLsb' 0 8) (o.extractLsb' 8 8) (o.extractLsb' 16 8) (o.extractLsb' 24 8)
      (o.extractLsb' 32 8) (o.extractLsb' 40 8) (o.extractLsb' 48 8) (o.extractLsb' 56 8) = o := by
  unfold offsetOfBytes
  ext i hi
  simp only [BitVec.getElem_append, BitVec.getElem_extractLsb']
  repeat' split
  all_goals (rw [BitVec.getLsbD_eq_getElem (by omega)]; congr 1; omega)

/-- The bytes of the offset that eight bytes spell are those bytes. -/
theorem offsetBytes_offsetOfBytes (b0 b1 b2 b3 b4 b5 b6 b7 : Byte) :
    offsetBytes (offsetOfBytes b0 b1 b2 b3 b4 b5 b6 b7) = [b0, b1, b2, b3, b4, b5, b6, b7] := by
  unfold offsetBytes offsetOfBytes
  simp only [List.cons.injEq, and_true]
  refine ⟨?_, ?_, ?_, ?_, ?_, ?_, ?_, ?_⟩ <;>
    (ext i hi; simp only [BitVec.getElem_extractLsb', BitVec.getLsbD_append]; repeat' split) <;>
    first
      | omega
      | (rw [BitVec.getLsbD_eq_getElem (by omega)]; congr 1; omega)

@[simp] theorem takeOffset_offsetBytes (o : Offset) (rest : List Byte) :
    takeOffset (offsetBytes o ++ rest) = some (o, rest) := by
  simp only [offsetBytes, List.cons_append, List.nil_append, takeOffset, offsetOfBytes_extract]

@[simp] theorem takeBeat_beatBytes (b : Beat) (rest : List Byte) :
    takeBeat (beatBytes b ++ rest) = some (b, rest) := by
  simp [takeBeat, beatBytes]

/-- All that taking an offset can answer. -/
theorem takeOffset_eq_some {l rest : List Byte} {o : Offset} (h : takeOffset l = some (o, rest)) :
    l = offsetBytes o ++ rest := by
  unfold takeOffset at h
  split at h
  · obtain ⟨rfl, rfl⟩ : _ ∧ _ := by simpa using h
    rw [offsetBytes_offsetOfBytes]; rfl
  · cases h

/-- All that taking a beat can answer. -/
theorem takeBeat_eq_some {l rest : List Byte} {b : Beat} (h : takeBeat l = some (b, rest)) :
    l = beatBytes b ++ rest := by
  unfold takeBeat at h
  split at h
  · cases h
  · split at h
    · cases h
    · rename_i h1
      split at h
      · cases h
      · rename_i h2
        obtain ⟨rfl, rfl⟩ : _ ∧ _ := by simpa using h
        rw [takeOffset_eq_some h1, takeOffset_eq_some h2]
        simp [beatBytes]

namespace Machine

/-- Word assembly is `b0 + 256 * b1` (spec/30_encoding.md R83). -/
theorem assembleWord_toNat (b0 b1 : Byte) : (assembleWord b0 b1).toNat = b0.toNat + 256 * b1.toNat := by
  unfold assembleWord
  rw [BitVec.toNat_append, ← Nat.shiftLeft_add_eq_or_of_lt b0.isLt, Nat.shiftLeft_eq]
  omega

@[simp] theorem lowByte_toNat (h : Half) : (lowByte h).toNat = h.toNat % 256 := by
  simp [lowByte]

@[simp] theorem zext16_toNat (b : Byte) : (zext16 b).toNat = b.toNat := by
  simp [zext16]; omega

/-- The high-byte operation as a number. -/
theorem withHighByte_toNat (h : Half) (b : Byte) : (withHighByte h b).toNat = h.toNat % 256 + 256 * b.toNat := by
  simp [withHighByte, assembleWord_toNat]

section RunCounter

variable (c : Config) (r : SsRegs)

/-- The width is the spec's `max(1, ceil(log2(SYNC_RUN_LEN)))` (spec/00_scope.md R8). -/
theorem runWidth_eq : runWidth c = max 1 (Nat.clog 2 c.syncRunLen.toNat) := by
  unfold runWidth
  generalize hn : c.syncRunLen.toNat = n
  have hlt : n < 256 := hn ▸ c.syncRunLen.isLt
  interval_cases n <;> rfl

/-- The values below `SYNC_RUN_LEN` fit the register. -/
theorem syncRunLen_le_pow_runWidth : c.syncRunLen.toNat ≤ 2 ^ runWidth c := by
  rw [runWidth_eq]
  exact (Nat.le_pow_clog (by omega) _).trans (Nat.pow_le_pow_right (by omega) (le_max_right _ _))

/-- The register fits its field. -/
theorem pow_runWidth_le : 2 ^ runWidth c ≤ 256 := by
  have h : Nat.clog 2 c.syncRunLen.toNat ≤ 8 := Nat.clog_le_of_le_pow c.syncRunLen.isLt.le
  rw [runWidth_eq]
  exact (Nat.pow_le_pow_right Nat.two_pos (max_le (by norm_num : 1 ≤ 8) h) : _ ≤ 2 ^ 8)

/-- What a write leaves in the field, as a number. -/
@[simp] theorem runOfNat_toNat (n : Nat) : (runOfNat c n).toNat = n % 2 ^ runWidth c := by
  have h := Nat.mod_lt n (Nat.two_pow_pos (runWidth c))
  have := pow_runWidth_le c
  rw [runOfNat, BitVec.toNat_ofNat]
  omega

/-- The register holds no value outside its width. -/
theorem ssRun_lt_pow : ssRun c r < 2 ^ runWidth c := Nat.mod_lt _ (Nat.two_pow_pos _)

/-- Where the field holds a value that fits the register, it is the register's value. -/
theorem ssRun_of_lt {c : Config} {r : SsRegs} (h : r.run.toNat < 2 ^ runWidth c) : ssRun c r = r.run.toNat :=
  Nat.mod_eq_of_lt h

/-- A cleared field is a cleared register. -/
theorem ssRun_of_zero {c : Config} {r : SsRegs} (h : r.run = 0#8) : ssRun c r = 0 := by simp [ssRun, h]

/-- The register reads back what was written to it, cut to its width. -/
theorem ssRun_write (n : Nat) : ssRun c { r with run := runOfNat c n } = n % 2 ^ runWidth c := by simp [ssRun]

end RunCounter

/-- The gap is the saturating difference (spec/41_framed_bus_ops.md R153). -/
theorem gapOf_toNat (e s : Offset) : (gapOf e s).toNat = s.toNat - e.toNat := by
  unfold gapOf
  split
  · rename_i h
    rw [BitVec.toNat_sub_of_le h]
  · rename_i h
    have h' : ¬ e.toNat ≤ s.toNat := fun hle => h (BitVec.le_def.mpr hle)
    have h0 : (0#64 : BitVec 64).toNat = 0 := rfl
    omega

end Machine

end Sys2Proof
end

