-- ==== Sys2Proof/Laws/Memory.lean ====
section
/-! SUPPORT. The payload buffer: a read after a write, and the canonical form that every operation keeps. -/

namespace Sys2Proof.Machine

/-- A write is seen at its own index. -/
@[simp] theorem Memory.written?_write_self (m : Memory) (i : Nat) (v : Byte) :
    (m.write i v).written? i = some v := by
  induction m with
  | nil => simp [Memory.write, Memory.written?]
  | cons e m ih =>
    obtain ⟨a, w⟩ := e
    by_cases h1 : i < a
    · simp [Memory.write, Memory.written?, h1]
    · by_cases h2 : i = a
      · simp [Memory.write, Memory.written?, h2]
      · simp [Memory.write, Memory.written?, h1, h2, Ne.symm h2, ih]

/-- A write leaves every other index alone. -/
@[simp] theorem Memory.written?_write_other (m : Memory) (i j : Nat) (v : Byte) (h : j ≠ i) :
    (m.write i v).written? j = m.written? j := by
  induction m with
  | nil => simp [Memory.write, Memory.written?, Ne.symm h]
  | cons e m ih =>
    obtain ⟨a, w⟩ := e
    by_cases h1 : i < a
    · simp [Memory.write, Memory.written?, h1, Ne.symm h]
    · by_cases h2 : i = a
      · subst h2
        simp [Memory.write, Memory.written?, Ne.symm h]
      · simp [Memory.write, Memory.written?, h1, h2, ih]

/-- All a write does, through the read of one byte. -/
theorem Memory.read_write (m : Memory) (i j : Nat) (v : Byte) :
    (m.write i v).read j = if j = i then v else m.read j := by
  by_cases h : j = i
  · simp [Memory.read, h]
  · simp [Memory.read, h]

/-- A smaller bound is met where a larger one is. -/
theorem Memory.wfFrom_mono {low low' : Nat} (h : low ≤ low') :
    ∀ {m : Memory}, Memory.wfFrom low' m = true → Memory.wfFrom low m = true
  | [], _ => rfl
  | (a, v) :: m, hm => by
    simp [Memory.wfFrom] at hm ⊢
    exact ⟨⟨by omega, hm.1.2⟩, hm.2⟩

/-- A write inside the buffer keeps the canonical form. -/
theorem Memory.wfFrom_write {i : Nat} (v : Byte) (hi : i < plDepth) :
    ∀ {m : Memory} {low : Nat}, low ≤ i → Memory.wfFrom low m = true → Memory.wfFrom low (m.write i v) = true
  | [], low, hl, _ => by simp [Memory.write, Memory.wfFrom, hl, hi]
  | (a, w) :: m, low, hl, hm => by
    simp [Memory.wfFrom] at hm
    obtain ⟨⟨h1, h2⟩, h3⟩ := hm
    by_cases hlt : i < a
    · simp [Memory.write, Memory.wfFrom, hlt, hl, hi, h2, h3]
    · by_cases heq : i = a
      · simp [Memory.write, Memory.wfFrom, heq, h1, h2, h3]
      · have := Memory.wfFrom_write v hi (m := m) (low := a + 1) (by omega) h3
        simp [Memory.write, Memory.wfFrom, hlt, heq, h1, h2, this]

/-- Every memory operation keeps the canonical form: the one that changes the buffer is the write. -/
theorem Memory.wf_write {m : Memory} {i : Nat} (v : Byte) (hi : i < plDepth) (h : m.wf = true) :
    (m.write i v).wf = true :=
  Memory.wfFrom_write v hi (Nat.zero_le i) h

/-- The buffer after reset is in canonical form. -/
theorem State.reset_pl_wf : State.reset.fb.pl.wf = true := rfl

/-- Below its bound a canonical buffer lists nothing. -/
theorem Memory.written?_below {low : Nat} :
    ∀ {m : Memory}, Memory.wfFrom low m = true → ∀ {i : Nat}, i < low → m.written? i = none
  | [], _, _, _ => rfl
  | (a, v) :: m, h, i, hi => by
    simp [Memory.wfFrom] at h
    have ha : a ≠ i := by omega
    simp only [Memory.written?, ha, if_false]
    exact Memory.written?_below h.2 (by omega)

/-- Canonical buffers that hold the same written bytes are the same list. -/
theorem Memory.ext_of_wfFrom :
    ∀ {m n : Memory} {low : Nat}, Memory.wfFrom low m = true → Memory.wfFrom low n = true →
      (∀ i, m.written? i = n.written? i) → m = n
  | [], [], _, _, _, _ => rfl
  | [], (b, w) :: n, _, _, _, h => by simpa [Memory.written?] using h b
  | (a, v) :: m, [], _, _, _, h => by simpa [Memory.written?] using h a
  | (a, v) :: m, (b, w) :: n, low, hm, hn, h => by
    have hm' := hm
    have hn' := hn
    simp [Memory.wfFrom] at hm hn
    obtain rfl : a = b := by
      rcases Nat.lt_trichotomy a b with hlt | heq | hgt
      · have h1 := h a
        have hne : b ≠ a := by omega
        simp only [Memory.written?, if_true, hne, if_false] at h1
        rw [Memory.written?_below hn.2 (by omega)] at h1
        cases h1
      · exact heq
      · have h1 := h b
        have hne : a ≠ b := by omega
        simp only [Memory.written?, if_true, hne, if_false] at h1
        rw [Memory.written?_below hm.2 (by omega)] at h1
        cases h1
    have hv : v = w := by simpa [Memory.written?] using h a
    subst hv
    have hrest : m = n := by
      refine Memory.ext_of_wfFrom hm.2 hn.2 (fun i => ?_)
      by_cases hi : a = i
      · subst hi
        rw [Memory.written?_below hm.2 (by omega), Memory.written?_below hn.2 (by omega)]
      · simpa [Memory.written?, hi] using h i
    rw [hrest]

/-- The listed entries after a write: the written index, and entries that were listed. -/
theorem Memory.mem_write {m : Memory} {i : Nat} {v : Byte} {e : Host.Cell} (h : e ∈ m.write i v) :
    e = (i, v) ∨ e ∈ m := by
  induction m with
  | nil => simpa [Memory.write] using h
  | cons c m ih =>
    obtain ⟨a, w⟩ := c
    by_cases h1 : i < a
    · simpa [Memory.write, h1] using h
    · by_cases h2 : i = a
      · simp [Memory.write, h2] at h ⊢
        tauto
      · simp [Memory.write, h1, h2] at h ⊢
        rcases h with h | h
        · exact .inr (.inl h)
        · rcases ih h with h | h
          · exact .inl h
          · exact .inr (.inr h)

@[simp] theorem Memory.readFirst_length (m : Memory) (n : Nat) : (m.readFirst n).length = n := by
  simp [Memory.readFirst]

/-- Entry `i` of the first `n`. -/
theorem Memory.readFirst_get? (m : Memory) {n i : Nat} (h : i < n) : (m.readFirst n)[i]? = some (m.read i) := by
  simp [Memory.readFirst, h]

end Sys2Proof.Machine
end

