-- ==== Sys2Proof/Laws/State.lean ====
section
/-! SUPPORT. One lemma per field of each record update, true by unfolding, so that no later proof unfolds one. -/

namespace Sys2Proof.Machine

section FinishSs

variable (s : State) (r : SsRegs) (ev : Option Event) (dg : Option Diag)

@[simp] theorem State.finishSs_cfg : (s.finishSs r ev dg).cfg = s.cfg := rfl
@[simp] theorem State.finishSs_fb : (s.finishSs r ev dg).fb = s.fb := rfl
@[simp] theorem State.finishSs_input : (s.finishSs r ev dg).input = s.input := rfl
@[simp] theorem State.finishSs_regs : (s.finishSs r ev dg).ss.regs = r := rfl
@[simp] theorem State.finishSs_evPort : (s.finishSs r ev dg).ss.evPort = ev := rfl
@[simp] theorem State.finishSs_dgPort : (s.finishSs r ev dg).ss.dgPort = dg := rfl
@[simp] theorem State.finishSs_events :
    (s.finishSs r ev dg).ss.events = appendItem s.ss.events ev := rfl
@[simp] theorem State.finishSs_diags :
    (s.finishSs r ev dg).ss.diags = appendItem s.ss.diags dg := rfl

end FinishSs

section FinishFb

variable (s : State) (r : FbRegs) (pl : Memory) (gap ev : Option Event) (dg : Option Diag)

@[simp] theorem State.finishFb_cfg : (s.finishFb r pl gap ev dg).cfg = s.cfg := rfl
@[simp] theorem State.finishFb_ss : (s.finishFb r pl gap ev dg).ss = s.ss := rfl
@[simp] theorem State.finishFb_input : (s.finishFb r pl gap ev dg).input = s.input := rfl
@[simp] theorem State.finishFb_regs : (s.finishFb r pl gap ev dg).fb.regs = r := rfl
@[simp] theorem State.finishFb_pl : (s.finishFb r pl gap ev dg).fb.pl = pl := rfl
@[simp] theorem State.finishFb_gapPort : (s.finishFb r pl gap ev dg).fb.gapPort = gap := rfl
@[simp] theorem State.finishFb_evPort : (s.finishFb r pl gap ev dg).fb.evPort = ev := rfl
@[simp] theorem State.finishFb_dgPort : (s.finishFb r pl gap ev dg).fb.dgPort = dg := rfl
@[simp] theorem State.finishFb_events :
    (s.finishFb r pl gap ev dg).fb.events = appendItem (appendItem s.fb.events gap) ev := rfl
@[simp] theorem State.finishFb_diags :
    (s.finishFb r pl gap ev dg).fb.diags = appendItem s.fb.diags dg := rfl

end FinishFb

section Consume

variable (s : State)

@[simp] theorem State.consume_cfg : s.consume.cfg = s.cfg := rfl
@[simp] theorem State.consume_ss : s.consume.ss = s.ss := rfl
@[simp] theorem State.consume_fb : s.consume.fb = s.fb := rfl
@[simp] theorem State.consume_input : s.consume.input = s.input.tail := rfl

end Consume

section FrameReset

variable (r : FbRegs)

@[simp] theorem frameReset_state : (frameReset r).state = FbCode.sync := rfl
@[simp] theorem frameReset_plCount : (frameReset r).plCount = 0#8 := rfl
@[simp] theorem frameReset_address : (frameReset r).address = r.address := rfl
@[simp] theorem frameReset_msgType : (frameReset r).msgType = r.msgType := rfl
@[simp] theorem frameReset_dataLength : (frameReset r).dataLength = r.dataLength := rfl
@[simp] theorem frameReset_checksum : (frameReset r).checksum = r.checksum := rfl
@[simp] theorem frameReset_plStart : (frameReset r).plStart = r.plStart := rfl
@[simp] theorem frameReset_frameStart : (frameReset r).frameStart = r.frameStart := rfl
@[simp] theorem frameReset_lastEnd : (frameReset r).lastEnd = r.lastEnd := rfl
@[simp] theorem frameReset_lastValid : (frameReset r).lastValid = r.lastValid := rfl

end FrameReset

section OffsetUpdate

variable (b : Beat) (r : FbRegs)

@[simp] theorem offsetUpdate_state : (offsetUpdate b r).state = r.state := rfl
@[simp] theorem offsetUpdate_plCount : (offsetUpdate b r).plCount = r.plCount := rfl
@[simp] theorem offsetUpdate_address : (offsetUpdate b r).address = r.address := rfl
@[simp] theorem offsetUpdate_msgType : (offsetUpdate b r).msgType = r.msgType := rfl
@[simp] theorem offsetUpdate_dataLength : (offsetUpdate b r).dataLength = r.dataLength := rfl
@[simp] theorem offsetUpdate_checksum : (offsetUpdate b r).checksum = r.checksum := rfl
@[simp] theorem offsetUpdate_plStart : (offsetUpdate b r).plStart = r.plStart := rfl
@[simp] theorem offsetUpdate_frameStart : (offsetUpdate b r).frameStart = r.frameStart := rfl
@[simp] theorem offsetUpdate_lastEnd : (offsetUpdate b r).lastEnd = b.es := rfl
@[simp] theorem offsetUpdate_lastValid : (offsetUpdate b r).lastValid = true := rfl

end OffsetUpdate

section TakeAddress

variable (b : Beat) (r : FbRegs)

@[simp] theorem takeAddress_state : (takeAddress b r).state = FbCode.waitAddress := rfl
@[simp] theorem takeAddress_plCount : (takeAddress b r).plCount = r.plCount := rfl
@[simp] theorem takeAddress_address : (takeAddress b r).address = b.byte := rfl
@[simp] theorem takeAddress_msgType : (takeAddress b r).msgType = r.msgType := rfl
@[simp] theorem takeAddress_dataLength : (takeAddress b r).dataLength = r.dataLength := rfl
@[simp] theorem takeAddress_checksum : (takeAddress b r).checksum = r.checksum := rfl
@[simp] theorem takeAddress_plStart : (takeAddress b r).plStart = r.plStart := rfl
@[simp] theorem takeAddress_frameStart : (takeAddress b r).frameStart = b.ss := rfl
@[simp] theorem takeAddress_lastEnd : (takeAddress b r).lastEnd = r.lastEnd := rfl
@[simp] theorem takeAddress_lastValid : (takeAddress b r).lastValid = r.lastValid := rfl

end TakeAddress

@[simp] theorem appendItem_eq {α : Type} (l : List α) (x : Option α) : appendItem l x = l ++ x.toList := by
  cases x <;> simp [appendItem]

end Sys2Proof.Machine
end

