-- ==== Sys2Proof/Laws/Ops.lean ====
section
/-! SUPPORT. What each shared operation and the step can do, once. -/

namespace Sys2Proof.Machine

section Matcher

variable (c : Config) (b : Beat) (r : SsRegs)

/-- The matcher writes `ss.run` and `ss.sync_start` and nothing else. -/
theorem syncMatcher_frame :
    syncMatcher c b r =
      { r with run := (syncMatcher c b r).run, syncStart := (syncMatcher c b r).syncStart } := by
  unfold syncMatcher
  split
  · split <;> rfl
  · rfl

@[simp] theorem syncMatcher_state : (syncMatcher c b r).state = r.state := by rw [syncMatcher_frame]
@[simp] theorem syncMatcher_address : (syncMatcher c b r).address = r.address := by rw [syncMatcher_frame]
@[simp] theorem syncMatcher_count : (syncMatcher c b r).count = r.count := by rw [syncMatcher_frame]
@[simp] theorem syncMatcher_countNeg : (syncMatcher c b r).countNeg = r.countNeg := by rw [syncMatcher_frame]
@[simp] theorem syncMatcher_value : (syncMatcher c b r).value = r.value := by rw [syncMatcher_frame]
@[simp] theorem syncMatcher_fieldStart : (syncMatcher c b r).fieldStart = r.fieldStart := by rw [syncMatcher_frame]

/-- `ss.run` after a beat: cleared by another byte and by a hit, else one more. -/
theorem syncMatcher_run :
    (syncMatcher c b r).run = if ssMatch c b && !ssHit c r b then runOfNat c (ssRun c r + 1) else 0#8 := by
  unfold syncMatcher
  cases ssMatch c b <;> cases ssHit c r b <;> rfl

/-- `ss.sync_start` after a beat. -/
theorem syncMatcher_syncStart :
    (syncMatcher c b r).syncStart = if ssMatch c b then runStart c r b else r.syncStart := by
  unfold syncMatcher
  cases ssMatch c b <;> cases ssHit c r b <;> rfl

/-- A counter in its range stays in it, so the increment never leaves the register (spec/40_sync_stream_ops.md
R122 (c)). -/
theorem syncMatcher_run_lt {c : Config} {b : Beat} {r : SsRegs} (h : r.run.toNat < c.syncRunLen.toNat) :
    (syncMatcher c b r).run.toNat < c.syncRunLen.toNat := by
  have hw := syncRunLen_le_pow_runWidth c
  have hr : ssRun c r = r.run.toNat := ssRun_of_lt (by omega)
  rw [syncMatcher_run]
  split
  · rename_i hc
    have hne : ¬ssRun c r + 1 = c.syncRunLen.toNat := by
      intro he
      simp [ssHit, he] at hc
    rw [runOfNat_toNat, Nat.mod_eq_of_lt (by omega)]
    omega
  · simp only [BitVec.toNat_zero]
    omega

/-- A hit, in terms of the registers. -/
theorem ssHit_iff :
    ssHit c r b = true ↔ b.byte = c.syncByte ∧ ssRun c r + 1 = c.syncRunLen.toNat := by
  simp [ssHit, ssMatch]

end Matcher

section Countdown

variable (r : SsRegs)

/-- `c'` as a number: one less, modulo `2^16`. -/
theorem decCount_toNat : (decCount r).toNat = (r.count.toNat + 65535) % 65536 := by
  simp [decCount, BitVec.toNat_sub]
  omega

/-- `neg'`: the flag was set, or the decrement borrows out of zero. -/
theorem decCountNeg_iff : decCountNeg r = true ↔ r.countNeg = true ∨ r.count = 0#16 := by
  simp [decCountNeg]

/-- The diagnostic comes with the first underrun only. -/
theorem decDiag_eq : decDiag r = if r.count = 0#16 ∧ r.countNeg = false then some .countUnderrun else none := by
  simp [decDiag]

end Countdown

section Gap

variable (c : Config) (b : Beat) (r : FbRegs)

/-- `g` in numbers: there is a previous byte and the saturating gap reaches the threshold. -/
theorem fbG_iff :
    fbG c r b = true ↔
      r.lastValid = true ∧ c.gapResetThreshold.toNat ≤ b.ss.toNat - r.lastEnd.toNat := by
  simp [fbG, fbGapValue, BitVec.le_def, gapOf_toNat]

/-- The reported gap in numbers. -/
theorem fbBelowCeiling_iff :
    fbBelowCeiling c r b = true ↔ b.ss.toNat - r.lastEnd.toNat < c.gapNoiseCeiling.toNat := by
  simp [fbBelowCeiling, fbGapValue, BitVec.lt_def, gapOf_toNat]

end Gap

/-- All a step that goes on can be: the fetched instruction, run on the state with the edge consumed. -/
theorem step_eq_next {s t : State} (h : step s = .next t) :
    ∃ i, s.fetch = .ok i ∧ exec i s.consume = .next t := by
  unfold step at h
  split at h
  · exact ⟨_, by assumption, h⟩
  · cases h

/-- The same for a step that faults. -/
theorem step_eq_fault {s : State} {f : Fault} (h : step s = .fault f) :
    ∃ i, s.fetch = .ok i ∧ exec i s.consume = .fault f := by
  unfold step at h
  split at h
  · exact ⟨_, by assumption, h⟩
  · cases h

/-- All an operation of unit SS that goes on can do: new registers, at most one event, at most one diagnostic. -/
theorem exec_ss_next {i : Instr} {s t : State} (hu : i.unit = .ss) (h : exec i s = .next t) :
    ∃ r ev dg, t = s.finishSs r ev dg := by
  cases i
  case ssIllegal => cases h
  all_goals first
    | exact ⟨_, _, _, (Host.Outcome.next.inj h).symm⟩
    | cases hu

/-- All an operation of unit FB that goes on can do: new registers, a new payload buffer, at most a gap event and one
event, at most one diagnostic. -/
theorem exec_fb_next {i : Instr} {s t : State} (hu : i.unit = .fb) (h : exec i s = .next t) :
    ∃ r pl gap ev dg, t = s.finishFb r pl gap ev dg := by
  cases i
  case fbWaitData => cases h
  case fbIllegal => cases h
  all_goals first
    | exact ⟨_, _, _, _, _, (Host.Outcome.next.inj h).symm⟩
    | cases hu

/-- An operation of unit SS that goes on has moved unit SS alone. -/
theorem exec_ss_local {i : Instr} {s t : State} (hu : i.unit = .ss) (h : exec i s = .next t) :
    t.cfg = s.cfg ∧ t.fb = s.fb ∧ t.input = s.input := by
  obtain ⟨r, ev, dg, rfl⟩ := exec_ss_next hu h
  simp

/-- An operation of unit FB that goes on has moved unit FB alone. -/
theorem exec_fb_local {i : Instr} {s t : State} (hu : i.unit = .fb) (h : exec i s = .next t) :
    t.cfg = s.cfg ∧ t.ss = s.ss ∧ t.input = s.input := by
  obtain ⟨r, pl, gap, ev, dg, rfl⟩ := exec_fb_next hu h
  simp

/-- No operation writes the configuration or the input. -/
theorem exec_cfg_input {i : Instr} {s t : State} (h : exec i s = .next t) :
    t.cfg = s.cfg ∧ t.input = s.input := by
  rcases hu : i.unit with _ | _
  · exact ⟨(exec_ss_local hu h).1, (exec_ss_local hu h).2.2⟩
  · exact ⟨(exec_fb_local hu h).1, (exec_fb_local hu h).2.2⟩

end Sys2Proof.Machine
end

