-- ==== Sys2Proof/Laws/PerInstr.lean ====
section
/-! SUPPORT. Facts stated for every operation, one lemma per constructor of `Instr`. -/

namespace Sys2Proof.Laws

/-- The dispatch word that an operation is encoded with lies in its own row of its unit's table, and that row bears its
mnemonic (spec/30_encoding.md R88, R89). -/
def RowMatch.Statement (i : Instr) : Prop :=
  i.wellFormed = true → (findRow i.unit i.dispatch).map OpcodeRow.mnemonic = some i.mnemonic

theorem RowMatch.ssReset (inValid hit : Bool) (code : StateCode) :
    RowMatch.Statement (.ssReset inValid hit code) := by
  intro _; revert inValid hit code; decide

theorem RowMatch.ssNop (hit : Bool) (code : StateCode) : RowMatch.Statement (.ssNop hit code) := by
  intro _; revert hit code; decide

theorem RowMatch.ssSync (code : StateCode) (b : Beat) : RowMatch.Statement (.ssSync code b) := by
  intro h
  clear h
  show (findRow .ss (packDispatch false true true code)).map OpcodeRow.mnemonic = some "SS.SYNC"
  revert code; decide

theorem RowMatch.ssIdle (b : Beat) : RowMatch.Statement (.ssIdle b) := by
  intro _; simp only [Instr.unit, Instr.dispatch, Instr.mnemonic]; decide
theorem RowMatch.ssAddrLo (b : Beat) : RowMatch.Statement (.ssAddrLo b) := by
  intro _; simp only [Instr.unit, Instr.dispatch, Instr.mnemonic]; decide
theorem RowMatch.ssAddrHi (b : Beat) : RowMatch.Statement (.ssAddrHi b) := by
  intro _; simp only [Instr.unit, Instr.dispatch, Instr.mnemonic]; decide
theorem RowMatch.ssCntLo (b : Beat) : RowMatch.Statement (.ssCntLo b) := by
  intro _; simp only [Instr.unit, Instr.dispatch, Instr.mnemonic]; decide
theorem RowMatch.ssCntHi (b : Beat) : RowMatch.Statement (.ssCntHi b) := by
  intro _; simp only [Instr.unit, Instr.dispatch, Instr.mnemonic]; decide
theorem RowMatch.ssDataLo (b : Beat) : RowMatch.Statement (.ssDataLo b) := by
  intro _; simp only [Instr.unit, Instr.dispatch, Instr.mnemonic]; decide
theorem RowMatch.ssDataHi (b : Beat) : RowMatch.Statement (.ssDataHi b) := by
  intro _; simp only [Instr.unit, Instr.dispatch, Instr.mnemonic]; decide
theorem RowMatch.ssIllegal (b : Beat) : RowMatch.Statement (.ssIllegal b) := by
  intro _; simp only [Instr.unit, Instr.dispatch, Instr.mnemonic]; decide

theorem RowMatch.fbReset (inValid g : Bool) (code : StateCode) :
    RowMatch.Statement (.fbReset inValid g code) := by
  intro _; revert inValid g code; decide

theorem RowMatch.fbNop (g : Bool) (code : StateCode) : RowMatch.Statement (.fbNop g code) := by
  intro _; revert g code; decide

theorem RowMatch.fbGapAddr (code : StateCode) (b : Beat) : RowMatch.Statement (.fbGapAddr code b) := by
  intro h
  clear h
  show (findRow .fb (packDispatch false true true code)).map OpcodeRow.mnemonic = some "FB.GAP_ADDR"
  revert code; decide

theorem RowMatch.fbAddr (b : Beat) : RowMatch.Statement (.fbAddr b) := by
  intro _; simp only [Instr.unit, Instr.dispatch, Instr.mnemonic]; decide
theorem RowMatch.fbMsgType (b : Beat) : RowMatch.Statement (.fbMsgType b) := by
  intro _; simp only [Instr.unit, Instr.dispatch, Instr.mnemonic]; decide
theorem RowMatch.fbDataLen (b : Beat) : RowMatch.Statement (.fbDataLen b) := by
  intro _; simp only [Instr.unit, Instr.dispatch, Instr.mnemonic]; decide
theorem RowMatch.fbPayload (b : Beat) : RowMatch.Statement (.fbPayload b) := by
  intro _; simp only [Instr.unit, Instr.dispatch, Instr.mnemonic]; decide
theorem RowMatch.fbWaitData (b : Beat) : RowMatch.Statement (.fbWaitData b) := by
  intro _; simp only [Instr.unit, Instr.dispatch, Instr.mnemonic]; decide
theorem RowMatch.fbChecksum (b : Beat) : RowMatch.Statement (.fbChecksum b) := by
  intro _; simp only [Instr.unit, Instr.dispatch, Instr.mnemonic]; decide

theorem RowMatch.fbIllegal (code : StateCode) (b : Beat) : RowMatch.Statement (.fbIllegal code b) := by
  intro h
  have h' : (code.extractLsb' 1 2 == 3#2) = true := h
  clear h
  show (findRow .fb (packDispatch false true false code)).map OpcodeRow.mnemonic = some "FB.ILLEGAL"
  revert code; decide

end Sys2Proof.Laws
end

