-- ==== Sys2Proof/Laws/Step.lean ====
section
/-! SUPPORT. What a step does, once: the instruction that the pins and the state select, run on the state with the edge
consumed. -/

namespace Sys2Proof.Machine

/-- The operation of unit SS that a beat selects (spec/30_encoding.md R88). -/
def ssSelects (c : Config) (r : SsRegs) (b : Beat) : Instr :=
  if ssHit c r b then .ssSync r.state b
  else if r.state = SsCode.awaitSync then .ssIdle b
  else if r.state = SsCode.addrLow then .ssAddrLo b
  else if r.state = SsCode.addrHigh then .ssAddrHi b
  else if r.state = SsCode.countLow then .ssCntLo b
  else if r.state = SsCode.countHigh then .ssCntHi b
  else if r.state = SsCode.dataLow then .ssDataLo b
  else if r.state = SsCode.dataHigh then .ssDataHi b
  else .ssIllegal b

/-- The operation of unit FB that a beat selects (spec/30_encoding.md R89). -/
def fbSelects (c : Config) (r : FbRegs) (b : Beat) : Instr :=
  if fbG c r b then .fbGapAddr r.state b
  else if r.state = FbCode.sync then .fbAddr b
  else if r.state = FbCode.waitAddress then .fbMsgType b
  else if r.state = FbCode.waitMsgType then .fbDataLen b
  else if r.state = FbCode.waitDataLength then .fbPayload b
  else if r.state = FbCode.waitData then .fbWaitData b
  else if r.state = FbCode.waitChecksum then .fbChecksum b
  else .fbIllegal r.state b

/-- The operation that a clock edge selects: reset first, then no beat, then the beat (spec/60_exceptions.md R177). -/
def selects (s : State) (d : Drive) : Instr :=
  match d.unit with
  | .ss =>
    if d.rst then .ssReset d.inValid (ssHit s.cfg s.ss.regs d.beat) s.ss.regs.state
    else if d.inValid then ssSelects s.cfg s.ss.regs d.beat
    else .ssNop (ssHit s.cfg s.ss.regs d.beat) s.ss.regs.state
  | .fb =>
    if d.rst then .fbReset d.inValid (fbG s.cfg s.fb.regs d.beat) s.fb.regs.state
    else if d.inValid then fbSelects s.cfg s.fb.regs d.beat
    else .fbNop (fbG s.cfg s.fb.regs d.beat) s.fb.regs.state

/-- The instruction a unit's table gives a dispatch word and a beat. -/
def rowInstr (u : UnitId) (k : DispatchWord) (b : Beat) : Option Instr := (findRow u k).map (fun r => r.build k b)

/-- A state code is one of the eight. -/
theorem stateCode_cases (c : StateCode) :
    c = 0#3 ∨ c = 1#3 ∨ c = 2#3 ∨ c = 3#3 ∨ c = 4#3 ∨ c = 5#3 ∨ c = 6#3 ∨ c = 7#3 := by
  revert c; decide

/-- The rows of unit SS, read off the dispatch word. -/
theorem rowInstr_ss (rst inValid hit : Bool) (code : StateCode) (b : Beat) :
    rowInstr .ss (packDispatch rst inValid hit code) b =
      some (if rst then .ssReset inValid hit code
        else if inValid then
          if hit then .ssSync code b
          else if code = SsCode.awaitSync then .ssIdle b
          else if code = SsCode.addrLow then .ssAddrLo b
          else if code = SsCode.addrHigh then .ssAddrHi b
          else if code = SsCode.countLow then .ssCntLo b
          else if code = SsCode.countHigh then .ssCntHi b
          else if code = SsCode.dataLow then .ssDataLo b
          else if code = SsCode.dataHigh then .ssDataHi b
          else .ssIllegal b
        else .ssNop hit code) := by
  rcases stateCode_cases code with rfl | rfl | rfl | rfl | rfl | rfl | rfl | rfl <;>
    cases rst <;> cases inValid <;> cases hit <;> rfl

/-- The rows of unit FB, read off the dispatch word. -/
theorem rowInstr_fb (rst inValid g : Bool) (code : StateCode) (b : Beat) :
    rowInstr .fb (packDispatch rst inValid g code) b =
      some (if rst then .fbReset inValid g code
        else if inValid then
          if g then .fbGapAddr code b
          else if code = FbCode.sync then .fbAddr b
          else if code = FbCode.waitAddress then .fbMsgType b
          else if code = FbCode.waitMsgType then .fbDataLen b
          else if code = FbCode.waitDataLength then .fbPayload b
          else if code = FbCode.waitData then .fbWaitData b
          else if code = FbCode.waitChecksum then .fbChecksum b
          else .fbIllegal code b
        else .fbNop g code) := by
  rcases stateCode_cases code with rfl | rfl | rfl | rfl | rfl | rfl | rfl | rfl <;>
    cases rst <;> cases inValid <;> cases g <;> rfl

/-- Decoding a header and, for a row that consumes one, a beat gives the row's instruction. -/
theorem decode_header {u : UnitId} {k : DispatchWord} {b : Beat} {i : Instr} (rest : List Byte)
    (hb : dispatchHasBeat k = false → b = noBeat) (hi : rowInstr u k b = some i) :
    decode (headerByte u k :: ((if dispatchHasBeat k then beatBytes b else []) ++ rest)) = .ok (i, rest) := by
  obtain ⟨row, hrow, rfl⟩ := Option.map_eq_some_iff.mp hi
  by_cases hk : dispatchHasBeat k = true
  · simp [decode, hrow, hk]
  · simp only [Bool.not_eq_true] at hk
    simp [decode, hrow, hk, hb hk]

/-- The bytes a clock edge fetches decode to the operation it selects. -/
theorem decode_fetchBytes (s : State) : decode (fetchBytes s) = .ok (selects s (nextDrive s), []) := by
  have key : ∀ (u : UnitId) (rst inValid sel : Bool) (code : StateCode) (b : Beat) (i : Instr),
      rowInstr u (packDispatch rst inValid sel code)
        (if dispatchHasBeat (packDispatch rst inValid sel code) then b else noBeat) = some i →
      decode (headerByte u (packDispatch rst inValid sel code) ::
        (if dispatchHasBeat (packDispatch rst inValid sel code) then beatBytes b else [])) = .ok (i, []) := by
    intro u rst inValid sel code b i h
    have := decode_header (b := if dispatchHasBeat (packDispatch rst inValid sel code) then b else noBeat) []
      (by intro hk; simp [hk]) h
    by_cases hk : dispatchHasBeat (packDispatch rst inValid sel code) = true
    · simpa [hk] using this
    · simp only [Bool.not_eq_true] at hk
      simpa [hk] using this
  unfold fetchBytes selects dispatchWord
  rcases hd : nextDrive s with ⟨u, rst, inValid, b⟩
  cases u
  · refine key _ _ _ _ _ _ _ ?_
    rw [rowInstr_ss]
    cases rst <;> cases inValid <;> simp [ssSelects, dispatchHasBeat]
  · refine key _ _ _ _ _ _ _ ?_
    rw [rowInstr_fb]
    cases rst <;> cases inValid <;> simp [fbSelects, dispatchHasBeat]

/-- All a step can be, unless the run length is out of range. -/
theorem step_eq_selects {s : State} (h : runLenUnusable s = false) :
    step s = exec (selects s (nextDrive s)) s.consume := by
  simp [step, State.fetch, h, decode_fetchBytes]

/-- A legal configuration is never refused. -/
theorem runLenUnusable_of_legal {s : State} (h : s.cfg.runLenLegal = true) : runLenUnusable s = false := by
  simp [runLenUnusable, h]

/-- A clock edge of unit FB is never refused. -/
theorem runLenUnusable_of_fb {s : State} (h : (nextDrive s).unit = .fb) : runLenUnusable s = false := by
  simp [runLenUnusable, h]

/-- A step that goes on was not refused. -/
theorem runLenUnusable_of_next {s t : State} (h : step s = .next t) : runLenUnusable s = false := by
  by_contra hc
  simp only [Bool.not_eq_false] at hc
  simp [step, State.fetch, hc] at h

/-- A step that goes on is the selected operation. -/
theorem exec_of_step {s t : State} (h : step s = .next t) : exec (selects s (nextDrive s)) s.consume = .next t := by
  rw [← step_eq_selects (runLenUnusable_of_next h)]; exact h

/-- The selected operation belongs to the unit whose clock edge it is. -/
theorem selects_unit (s : State) (d : Drive) : (selects s d).unit = d.unit := by
  unfold selects ssSelects fbSelects
  cases d.unit <;> simp only [] <;> (repeat' split) <;> rfl

end Sys2Proof.Machine
end

