-- ==== Sys2Proof/Laws/Rules.lean ====
section
/-! SUPPORT. The words that statements are made in (Sys2Proof/Safety.lean) against the model's operations, one lemma
each. -/

namespace Sys2Proof.Machine

/-- The high-byte operation assembles `b0 + 256 * b1`. -/
theorem withHighByte_eq_wordOf (h : Half) (b : Byte) : withHighByte h b = wordOf h.toNat b := by
  apply BitVec.eq_of_toNat_eq
  have := b.isLt
  rw [withHighByte_toNat, wordOf, BitVec.toNat_ofNat]
  omega

/-- The zero extension as a number. -/
theorem zext16_eq_ofNat (b : Byte) : zext16 b = BitVec.ofNat 16 b.toNat := by
  apply BitVec.eq_of_toNat_eq
  have := b.isLt
  rw [zext16_toNat, BitVec.toNat_ofNat]
  omega

/-- The matcher follows its rule; so does any register record that takes `ss.run` and `ss.sync_start` from it. -/
theorem syncMatcher_rule {c : Config} {b : Beat} {r r' : SsRegs} (hr : r'.run = (syncMatcher c b r).run)
    (hs : r'.syncStart = (syncMatcher c b r).syncStart) : SyncMatcherRule c b r r' := by
  unfold SyncMatcherRule
  rw [hr, hs, syncMatcher_run, syncMatcher_syncStart]
  refine ⟨fun h => by simp [ssMatch, h], fun h => ⟨by simp [ssMatch, runStart, h], fun h' => ?_, fun h' => ?_⟩⟩
  · simp [ssHit, h']
  · simp [ssHit, ssMatch, h, h', runOfNat]

/-- The end-of-record test on the values before the decrement: the countdown stands at one. -/
theorem ssRecordEnds_dec (r : SsRegs) :
    ssRecordEnds (decCount r) (decCountNeg r) = true ↔ r.count.toNat = 1 ∧ r.countNeg = false := by
  have hlt := r.count.isLt
  have hz : decCount r = 0#16 ↔ r.count.toNat = 1 := by
    rw [BitVec.toNat_eq, decCount_toNat]
    simp only [BitVec.toNat_zero]
    omega
  simp only [ssRecordEnds, Bool.and_eq_true, beq_iff_eq, hz, Bool.not_eq_true', decCountNeg, Bool.or_eq_false_iff]
  constructor
  · rintro ⟨h1, h2, -⟩
    exact ⟨h1, h2⟩
  · rintro ⟨h1, h2⟩
    refine ⟨h1, h2, ?_⟩
    simp only [beq_eq_false_iff_ne, ne_eq, BitVec.toNat_eq, BitVec.toNat_zero]
    omega

/-- The gap of a beat as a natural number. -/
theorem fbGapValue_eq_gapNat (r : FbRegs) (b : Beat) : fbGapValue r b = BitVec.ofNat 64 (gapNat r b) := by
  apply BitVec.eq_of_toNat_eq
  have := b.ss.isLt
  rw [fbGapValue, gapOf_toNat, gapNat, BitVec.toNat_ofNat]
  omega

/-- The gap event in numbers. -/
theorem gapEvent_eq (c : Config) (r : FbRegs) (b : Beat) :
    gapEvent c r b =
      if gapNat r b < c.gapNoiseCeiling.toNat then
        some (.fbGap r.lastEnd b.ss (BitVec.ofNat 64 (gapNat r b))) else none := by
  rw [gapEvent, fbGapValue_eq_gapNat]
  exact if_congr (fbBelowCeiling_iff c b r) rfl rfl

/-- What a beat of unit SS makes the step do. -/
theorem step_of_ssBeat {s : State} {b : Beat} (hl : s.cfg.runLenLegal = true) (hd : nextBeatIs s .ss b) :
    step s = exec (ssSelects s.cfg s.ss.regs b) s.consume := by
  unfold nextBeatIs at hd
  rw [step_eq_selects (runLenUnusable_of_legal hl), hd]
  rfl

/-- What a beat of unit FB makes the step do. -/
theorem step_of_fbBeat {s : State} {b : Beat} (hd : nextBeatIs s .fb b) :
    step s = exec (fbSelects s.cfg s.fb.regs b) s.consume := by
  unfold nextBeatIs at hd
  rw [step_eq_selects (runLenUnusable_of_fb (by rw [hd])), hd]
  rfl

/-- The dispatch word of the operation that a beat of unit SS selects. -/
theorem ssSelects_dispatch (c : Config) (r : SsRegs) (b : Beat) :
    (ssSelects c r b).dispatch = packDispatch false true (ssHit c r b) r.state := by
  unfold ssSelects
  generalize ssHit c r b = hit
  generalize r.state = q
  rcases stateCode_cases q with rfl | rfl | rfl | rfl | rfl | rfl | rfl | rfl <;> cases hit <;> rfl

/-- The dispatch word of the operation that a beat of unit FB selects. -/
theorem fbSelects_dispatch (c : Config) (r : FbRegs) (b : Beat) :
    (fbSelects c r b).dispatch = packDispatch false true (fbG c r b) r.state := by
  unfold fbSelects
  generalize fbG c r b = g
  generalize r.state = q
  rcases stateCode_cases q with rfl | rfl | rfl | rfl | rfl | rfl | rfl | rfl <;> cases g <;> rfl

/-- The operation that a beat of unit SS selects carries it. -/
theorem ssSelects_beat (c : Config) (r : SsRegs) (b : Beat) : (ssSelects c r b).beat? = some b := by
  unfold ssSelects
  generalize ssHit c r b = hit
  generalize r.state = q
  rcases stateCode_cases q with rfl | rfl | rfl | rfl | rfl | rfl | rfl | rfl <;> cases hit <;> rfl

/-- The operation that a beat of unit FB selects carries it. -/
theorem fbSelects_beat (c : Config) (r : FbRegs) (b : Beat) : (fbSelects c r b).beat? = some b := by
  unfold fbSelects
  generalize fbG c r b = g
  generalize r.state = q
  rcases stateCode_cases q with rfl | rfl | rfl | rfl | rfl | rfl | rfl | rfl <;> cases g <;> rfl

/-! ### The field of `ss.run` -/

@[simp] theorem State.withRun_run (s : State) (v : BitVec 8) : (s.withRun v).ss.regs.run = v := rfl
@[simp] theorem State.withRun_state (s : State) (v : BitVec 8) : (s.withRun v).ss.regs.state = s.ss.regs.state := rfl
@[simp] theorem State.withRun_cfg (s : State) (v : BitVec 8) : (s.withRun v).cfg = s.cfg := rfl
@[simp] theorem State.withRun_fb (s : State) (v : BitVec 8) : (s.withRun v).fb = s.fb := rfl
@[simp] theorem State.withRun_input (s : State) (v : BitVec 8) : (s.withRun v).input = s.input := rfl
@[simp] theorem State.withRun_consume (s : State) (v : BitVec 8) :
    (s.withRun v).consume = s.consume.withRun v := rfl
@[simp] theorem nextDrive_withRun (s : State) (v : BitVec 8) : nextDrive (s.withRun v) = nextDrive s := rfl

/-- Two fields that agree below the width hold the same register. -/
theorem ssRun_withRun {s : State} {v : BitVec 8}
    (h : v.toNat % 2 ^ runWidth s.cfg = s.ss.regs.run.toNat % 2 ^ runWidth s.cfg) :
    ssRun s.cfg (s.withRun v).ss.regs = ssRun s.cfg s.ss.regs := h

/-- They select the same operation. -/
theorem ssHit_withRun {s : State} {v : BitVec 8} (b : Beat)
    (h : v.toNat % 2 ^ runWidth s.cfg = s.ss.regs.run.toNat % 2 ^ runWidth s.cfg) :
    ssHit s.cfg (s.withRun v).ss.regs b = ssHit s.cfg s.ss.regs b := by
  rw [ssHit, ssHit, ssRun_withRun h]

/-! ### Lists of beats and runs -/

theorem noSyncHit_nil (c : Config) (run : Nat) : NoSyncHit c run [] := trivial

/-- The first beat of a list without a sync hit, and the rest of it. -/
theorem noSyncHit_cons (c : Config) (run : Nat) (b : Beat) (bs : List Beat) :
    NoSyncHit c run (b :: bs) ↔
      (b.byte = c.syncByte → run + 1 ≠ c.syncRunLen.toNat) ∧
        NoSyncHit c (if b.byte = c.syncByte then run + 1 else 0) bs := Iff.rfl

/-- A run of one step and the rest. -/
theorem steps_succ_of_next {n : Nat} {s t : State} (h : step s = .next t) : steps (n + 1) s = steps n t := by
  simp [steps, h]

end Sys2Proof.Machine
end

