-- ==== Sys2Proof/Tests/Slice0.lean ====
section
/-! SUPPORT. Tests: the decoding of a word of every row, the well-formedness check, one step of every operation with the
values of the spec's own examples, and for each statement with hypotheses an input that meets them together. -/

namespace Sys2Proof.Tests

open Sys2Proof.Machine
open Host (Outcome)

/-! ## Decoding: a word of every row, written out from the tables of spec/30_encoding.md R88 and R89

The bits are `{rst, in_valid, hit or g, state}`; in a row's don't-care places the words have both values somewhere. Unit
FB's words carry the model's header bit 6 (log 4). -/

theorem test_decode_ssReset : decodeTableWord 8 0b0110101 = some (.ssReset true false 5#3) := by decide
theorem test_decode_ssNop : decodeTableWord 8 0b0001011 = some (.ssNop true 3#3) := by decide
theorem test_decode_ssSync : decodeTableWord 8 0b0011110 = some (.ssSync 6#3 noBeat) := by decide
theorem test_decode_ssIdle : decodeTableWord 8 0b0010000 = some (.ssIdle noBeat) := by decide
theorem test_decode_ssAddrLo : decodeTableWord 8 0b0010001 = some (.ssAddrLo noBeat) := by decide
theorem test_decode_ssAddrHi : decodeTableWord 8 0b0010010 = some (.ssAddrHi noBeat) := by decide
theorem test_decode_ssCntLo : decodeTableWord 8 0b0010011 = some (.ssCntLo noBeat) := by decide
theorem test_decode_ssCntHi : decodeTableWord 8 0b0010100 = some (.ssCntHi noBeat) := by decide
theorem test_decode_ssDataLo : decodeTableWord 8 0b0010101 = some (.ssDataLo noBeat) := by decide
theorem test_decode_ssDataHi : decodeTableWord 8 0b0010110 = some (.ssDataHi noBeat) := by decide
theorem test_decode_ssIllegal : decodeTableWord 8 0b0010111 = some (.ssIllegal noBeat) := by decide
theorem test_decode_fbReset : decodeTableWord 8 0b1101010 = some (.fbReset false true 2#3) := by decide
theorem test_decode_fbNop : decodeTableWord 8 0b1000100 = some (.fbNop false 4#3) := by decide
theorem test_decode_fbGapAddr : decodeTableWord 8 0b1011011 = some (.fbGapAddr 3#3 noBeat) := by decide
theorem test_decode_fbAddr : decodeTableWord 8 0b1010000 = some (.fbAddr noBeat) := by decide
theorem test_decode_fbMsgType : decodeTableWord 8 0b1010001 = some (.fbMsgType noBeat) := by decide
theorem test_decode_fbDataLen : decodeTableWord 8 0b1010010 = some (.fbDataLen noBeat) := by decide
theorem test_decode_fbPayload : decodeTableWord 8 0b1010011 = some (.fbPayload noBeat) := by decide
theorem test_decode_fbWaitData : decodeTableWord 8 0b1010100 = some (.fbWaitData noBeat) := by decide
theorem test_decode_fbChecksum : decodeTableWord 8 0b1010101 = some (.fbChecksum noBeat) := by decide
theorem test_decode_fbIllegal : decodeTableWord 8 0b1010111 = some (.fbIllegal 7#3 noBeat) := by decide

/-- The beat's bytes: the byte, the start and the end, low byte first (log 4); the byte after them is left over. -/
theorem test_decode_beat :
    decode [0x11, 0x34, 0x28, 0x01, 0, 0, 0, 0, 0, 0, 0x30, 0x02, 0, 0, 0, 0, 0, 0x80, 0xAB] =
      .ok (.ssAddrLo ⟨0x34#8, 0x128#64, 0x8000000000000230#64⟩, [0xAB]) := by rfl

theorem test_decode_nothing : decode [] = .error .noHeader := by rfl
theorem test_decode_reserved : decode [0x80] = .error (.reservedHeaderBit 0x80#8) := by rfl
theorem test_decode_short : decode [0x11, 0x34] = .error .truncatedBeat := by rfl

/-- The check of WellFormed refuses a code outside `11x` in `FB.ILLEGAL` (R89). -/
theorem test_wellFormed_refuses : (Instr.fbIllegal 5#3 noBeat).wellFormed = false := by decide

/-! ## Small states -/

/-- A beat from numbers. -/
def beat (v s e : Nat) : Beat := ⟨BitVec.ofNat 8 v, BitVec.ofNat 64 s, BitVec.ofNat 64 e⟩

/-- Reset, but for unit SS's registers and the input. -/
def ssAt (r : SsRegs) (ds : List Drive) : State :=
  { State.reset with ss := { State.reset.ss with regs := r }, input := ds }

/-- Reset, but for unit FB's registers, the payload buffer and the input. -/
def fbAt (r : FbRegs) (pl : Memory) (ds : List Drive) : State :=
  { State.reset with fb := { State.reset.fb with regs := r, pl := pl }, input := ds }

/-- Unit SS in a state, everything else at reset. -/
def ssIn (q : StateCode) : SsRegs := { SsRegs.reset with state := q }

/-- Unit FB in a state, the previous byte having ended at 380, everything else at reset. -/
def fbIn (q : StateCode) : FbRegs := { FbRegs.reset with state := q, lastEnd := 380#64, lastValid := true }

/-- The next state. -/
def nextOf : Outcome State Fault Refusal → Option State
  | .next t => some t
  | .fault _ => none
  | .refused _ => none

/-- A view of the next state of one step. -/
def stepView {α : Type} (f : State → α) (s : State) : Option α := (nextOf (step s)).map f

/-! ## One step of each operation of unit SS (the examples of spec/40_sync_stream_ops.md) -/

/-- R200, R59: every register at its reset value, the presented beat lost. -/
theorem test_ssReset :
    stepView (fun t => (t.ss.regs, t.ss.evPort))
      (ssAt { ssIn 6#3 with count := 3#16, countNeg := true, run := 2#8 } [⟨.ss, true, true, beat 0x55 0 8⟩]) =
      some (SsRegs.reset, none) := by decide

/-- R119: an idle cycle leaves `ss.run` and takes the event off the port. -/
theorem test_ssNop :
    stepView (fun t => (t.ss.regs.run, t.ss.evPort))
      { ssAt { ssIn 0#3 with run := 2#8 } [⟨.ss, false, false, beat 0x12 0 8⟩] with
        ss := { State.reset.ss with
          regs := { ssIn 0#3 with run := 2#8 }, evPort := some (.ssCount 0#64 0#64 0#16) } } =
      some (2#8, none) := by decide

/-- R111: the fourth `55` of a run that began at 0, in the middle of a word. -/
theorem test_ssSync :
    stepView (fun t => (t.ss.regs.state, t.ss.regs.run, t.ss.regs.address, t.ss.evPort))
      (ssAt { ssIn 6#3 with run := 3#8, syncStart := 0#64, address := 0x1000#16 } [ssBeat (beat 0x55 30 38)]) =
      some (1#3, 0#8, 0#16, some (.ssSync 0#64 38#64)) := by decide

/-- R8: two bits at the default; the least and the largest run length, and the values around a power of two. -/
theorem test_runWidth :
    [1, 2, 3, 4, 5, 128, 129, 255].map (fun n => runWidth { Config.defaults with syncRunLen := BitVec.ofNat 8 n }) =
      [1, 1, 2, 2, 3, 7, 8, 8] := by decide

/-- R8: at the default the register is two bits of its field; here the run is 3, and the next `55` a sync hit. -/
theorem test_ssSync_width :
    stepView (fun t => (t.ss.regs.run, t.ss.evPort))
      (ssAt { ssIn 0#3 with run := 0x07#8, syncStart := 0#64 } [ssBeat (beat 0x55 30 38)]) =
      some (0#8, some (.ssSync 0#64 38#64)) := by decide

/-- R112: from reset, `12 @0..8` changes nothing and emits nothing. -/
theorem test_ssIdle :
    stepView (fun t => (t.ss.regs, t.ss.evPort)) (ssAt SsRegs.reset [ssBeat (beat 0x12 0 8)]) =
      some (SsRegs.reset, none) := by decide

/-- R110: from `ss.run = 2`, `55 @20..28` gives `ss.run = 3`. -/
theorem test_ssIdle_run :
    stepView (fun t => (t.ss.regs.run, t.ss.regs.syncStart))
      (ssAt { ssIn 0#3 with run := 2#8, syncStart := 7#64 } [ssBeat (beat 0x55 20 28)]) =
      some (3#8, 7#64) := by decide

/-- R113: `00 @40..48`, over an old address. -/
theorem test_ssAddrLo :
    stepView (fun t => (t.ss.regs.address, t.ss.regs.fieldStart, t.ss.regs.state))
      (ssAt { ssIn 1#3 with address := 0x1234#16 } [ssBeat (beat 0x00 40 48)]) =
      some (0x0000#16, 40#64, 2#3) := by decide

/-- R114: `10 @50..58` after `00 @40..48`. -/
theorem test_ssAddrHi :
    stepView (fun t => (t.ss.evPort, t.ss.regs.state, t.ss.dgPort))
      (ssAt { ssIn 2#3 with fieldStart := 40#64 } [ssBeat (beat 0x10 50 58)]) =
      some (some (.ssAddr 40#64 58#64 0x1000#16 false), 3#3, none) := by decide

/-- R114, R172: the escape. -/
theorem test_ssAddrHi_escape :
    stepView (fun t => (t.ss.evPort, t.ss.regs.state, t.ss.dgPort))
      (ssAt { ssIn 2#3 with address := 0x0055#16, fieldStart := 40#64 } [ssBeat (beat 0x55 50 58)]) =
      some (some (.ssAddr 40#64 58#64 0x5555#16 true), 0#3, some .escape) := by decide

/-- R115: `04 @60..68`. -/
theorem test_ssCntLo :
    stepView (fun t => (t.ss.regs.count, t.ss.regs.fieldStart, t.ss.regs.state))
      (ssAt (ssIn 3#3) [ssBeat (beat 0x04 60 68)]) =
      some (0x0004#16, 60#64, 4#3) := by decide

/-- R116: `00 @70..78` after `04 @60..68`. -/
theorem test_ssCntHi :
    stepView (fun t => (t.ss.evPort, t.ss.regs.state))
      (ssAt { ssIn 4#3 with count := 4#16, fieldStart := 60#64 } [ssBeat (beat 0x00 70 78)]) =
      some (some (.ssCount 60#64 78#64 0x0004#16), 5#3) := by decide

/-- R117: `34 @80..88` with `ss.count = 4`. -/
theorem test_ssDataLo :
    stepView (fun t => (t.ss.regs.value, t.ss.regs.count, t.ss.regs.fieldStart, t.ss.regs.state))
      (ssAt { ssIn 5#3 with count := 4#16 } [ssBeat (beat 0x34 80 88)]) =
      some (0x0034#16, 3#16, 80#64, 6#3) := by decide

/-- R120, R174: the first underrun. -/
theorem test_ssDataLo_underrun :
    stepView (fun t => (t.ss.regs.count, t.ss.regs.countNeg, t.ss.dgPort))
      (ssAt (ssIn 5#3) [ssBeat (beat 0x34 80 88)]) =
      some (0xFFFF#16, true, some .countUnderrun) := by decide

/-- R118: `12 @90..98` after `34 @80..88`, more words to come. -/
theorem test_ssDataHi :
    stepView (fun t => (t.ss.evPort, t.ss.regs.address, t.ss.regs.count, t.ss.regs.state))
      (ssAt { ssIn 6#3 with value := 0x0034#16, address := 0x1000#16, count := 3#16, fieldStart := 80#64 }
        [ssBeat (beat 0x12 90 98)]) =
      some (some (.ssWrite 80#64 98#64 0x1000#16 0x1234#16), 0x1002#16, 2#16, 5#3) := by decide

/-- R118 (b): the record ends, the address wraps. -/
theorem test_ssDataHi_end :
    stepView (fun t => (t.ss.regs.address, t.ss.regs.count, t.ss.regs.state))
      (ssAt { ssIn 6#3 with address := 0xFFFE#16, count := 1#16 } [ssBeat (beat 0x12 90 98)]) =
      some (0x0000#16, 0#16, 1#3) := by decide

/-- R96, R175: code 7 faults. -/
theorem test_ssIllegal :
    step (ssAt (ssIn 7#3) [ssBeat (beat 0x12 0 8)]) = .fault (.illegalState .ss 7#3) := by rfl

/-! ## One step of each operation of unit FB (the examples of spec/41_framed_bus_ops.md) -/

/-- R200: the registers at reset, `PL` not cleared. -/
theorem test_fbReset :
    stepView (fun t => (t.fb.regs, t.fb.pl))
      (fbAt (fbIn 5#3) [(0, 0x41#8)] [⟨.fb, true, true, beat 1 1000 1080⟩]) =
      some (FbRegs.reset, [(0, 0x41#8)]) := by decide

/-- R149: an idle cycle leaves `fb.last_end`. -/
theorem test_fbNop :
    stepView (fun t => (t.fb.regs, t.fb.evPort)) (fbAt (fbIn 3#3) [] [⟨.fb, false, false, beat 1 1000 1080⟩]) =
      some (fbIn 3#3, none) := by decide

/-- R144: a gap of 6000 in the middle of a payload: no `FB_GAP`. -/
theorem test_fbGapAddr :
    stepView (fun t => (t.fb.gapPort, t.fb.evPort, t.fb.regs.plCount, t.fb.regs.state))
      (fbAt { fbIn 3#3 with plCount := 1#8, dataLength := 3#8 } [] [fbBeat (beat 0x05 6380 6460)]) =
      some (none, some (.fbAddr 6380#64 6460#64 0x05#8), 0#8, 1#3) := by decide

/-- R141: `fb.last_end = 1680`, next beat `00 @2080..2160`: gap 400, reported. -/
theorem test_fbGapAddr_reported :
    stepView (fun t => (t.fb.gapPort, t.fb.dgPort))
      (fbAt { fbIn 5#3 with lastEnd := 1680#64 } [] [fbBeat (beat 0x00 2080 2160)]) =
      some (some (.fbGap 1680#64 2080#64 400#64), some .gapReset) := by decide

/-- R143: from reset, `05 @1000..1080`. -/
theorem test_fbAddr :
    stepView (fun t => (t.fb.evPort, t.fb.regs.address, t.fb.regs.frameStart, t.fb.regs.state))
      (fbAt FbRegs.reset [] [fbBeat (beat 0x05 1000 1080)]) =
      some (some (.fbAddr 1000#64 1080#64 0x05#8), 5#8, 1000#64, 1#3) := by decide

/-- R145: `01 @1100..1180`. -/
theorem test_fbMsgType :
    stepView (fun t => (t.fb.evPort, t.fb.regs.msgType, t.fb.regs.lastEnd, t.fb.regs.state))
      (fbAt { fbIn 1#3 with lastEnd := 1080#64 } [] [fbBeat (beat 0x01 1100 1180)]) =
      some (some (.fbMsgType 1100#64 1180#64 0x01#8), 1#8, 1180#64, 2#3) := by decide

/-- R146: `03 @1200..1280`. -/
theorem test_fbDataLen :
    stepView (fun t => (t.fb.evPort, t.fb.regs.state))
      (fbAt { fbIn 2#3 with lastEnd := 1180#64 } [] [fbBeat (beat 0x03 1200 1280)]) =
      some (some (.fbDataLen 1200#64 1280#64 0x03#8), 3#3) := by decide

/-- R146: `00 @2280..2360`, an empty payload. -/
theorem test_fbDataLen_zero :
    stepView (fun t => (t.fb.evPort, t.fb.regs.state))
      (fbAt { fbIn 2#3 with lastEnd := 2260#64 } [] [fbBeat (beat 0x00 2280 2360)]) =
      some (some (.fbDataLen 2280#64 2360#64 0x00#8), 5#3) := by decide

/-- R147: the first of three bytes, `41 @1300..1380`. -/
theorem test_fbPayload_first :
    stepView (fun t => (t.fb.pl, t.fb.regs.plStart, t.fb.regs.plCount, t.fb.evPort, t.fb.regs.state))
      (fbAt { fbIn 3#3 with dataLength := 3#8, lastEnd := 1280#64 } [] [fbBeat (beat 0x41 1300 1380)]) =
      some ([(0, 0x41#8)], 1300#64, 1#8, none, 3#3) := by decide

/-- R147: the last of three bytes, `43 @1500..1580`. -/
theorem test_fbPayload_last :
    stepView (fun t => (t.fb.pl, t.fb.regs.plCount, t.fb.evPort, t.fb.regs.state))
      (fbAt { fbIn 3#3 with dataLength := 3#8, plCount := 2#8, plStart := 1300#64, lastEnd := 1480#64 }
        [(0, 0x41#8), (1, 0x42#8)] [fbBeat (beat 0x43 1500 1580)]) =
      some ([(0, 0x41#8), (1, 0x42#8), (2, 0x43#8)], 3#8, some (.fbPayload 1300#64 1580#64 3#8), 5#3) := by decide

/-- R95: the reserved state faults. -/
theorem test_fbWaitData :
    step (fbAt (fbIn 4#3) [] [fbBeat (beat 1 400 480)]) = .fault (.illegalState .fb 4#3) := by rfl

/-- R148: `07 @1600..1680` closes the frame 5, 1, [41 42 43]; the state stays. -/
theorem test_fbChecksum :
    stepView (fun t => (t.fb.evPort, t.fb.regs.state))
      (fbAt
        { fbIn 5#3 with
          address := 5#8, msgType := 1#8, dataLength := 3#8, plCount := 3#8, frameStart := 1000#64,
          lastEnd := 1580#64 }
        [(0, 0x41#8), (1, 0x42#8), (2, 0x43#8)] [fbBeat (beat 0x07 1600 1680)]) =
      some (some (.fbFrame 1000#64 1680#64 0x05#8 0x01#8 3#8 [0x41#8, 0x42#8, 0x43#8] 0x07#8), 5#3) := by decide

/-- R148 (b): a broadcast frame goes back to `SYNC`. -/
theorem test_fbChecksum_broadcast :
    stepView (fun t => t.fb.regs.state) (fbAt (fbIn 5#3) [] [fbBeat (beat 0x99 400 480)]) = some 0#3 := by decide

/-- R96: codes 6 and 7 fault. -/
theorem test_fbIllegal :
    step (fbAt (fbIn 6#3) [] [fbBeat (beat 1 400 480)]) = .fault (.illegalState .fb 6#3) := by rfl

/-- R99: a stimulus at the initial pitch 10 and width 8. -/
theorem test_stimulus :
    stimDrives .ss StimPos.initial [.byte 0x55#8, .byte 0x55#8, .gap 5, .byte 1#8, .rst] =
      [ssBeat (beat 0x55 0 8), ssBeat (beat 0x55 10 18), ssBeat (beat 1 23 31), ⟨.ss, true, false, noBeat⟩] := by
  decide

/-! ## Inputs that meet the hypotheses of the statements -/

theorem test_witness_DecodeEncodeRoundTrip : (Instr.fbIllegal 6#3 (beat 1 2 3)).wellFormed = true := by decide

theorem test_witness_DecodedBytesAreTheEncoding :
    decode [0x20#8, 7#8] = .ok (.ssReset false false 0#3, [7#8]) := by rfl

theorem test_witness_SsDispatchWordAndRows :
    (ssBeat (beat 1 2 3)).unit = .ss ∧ (nextDrive (ssAt (ssIn 1#3) [ssBeat (beat 1 2 3)])).unit = .ss ∧
      runLenUnusable (ssAt (ssIn 1#3) [ssBeat (beat 1 2 3)]) = false := by decide

theorem test_witness_FbDispatchWordAndRows :
    (fbBeat (beat 1 2 3)).unit = .fb ∧ (nextDrive (fbAt (fbIn 1#3) [] [fbBeat (beat 1 2 3)])).unit = .fb ∧
      runLenUnusable (fbAt (fbIn 1#3) [] [fbBeat (beat 1 2 3)]) = false := by decide

theorem test_witness_StepRunsTheDecodedInstruction :
    runLenUnusable (ssAt (ssIn 1#3) [ssBeat (beat 1 2 3)]) = false ∧
      decode (fetchBytes (ssAt (ssIn 1#3) [ssBeat (beat 1 2 3)])) = .ok (.ssAddrLo (beat 1 2 3), []) := ⟨rfl, rfl⟩

theorem test_witness_EveryEdgePerformsItsDispatchWord :
    runLenUnusable (fbAt (fbIn 3#3) [] [fbBeat (beat 1 2 3)]) = false := by decide

theorem test_witness_PlacedWordIsWhatTheStepRuns :
    State.reset.cfg.runLenLegal = true ∧ decodeTableWord 8 0x1E = some (.ssSync 6#3 noBeat) := by decide

theorem test_witness_IllegalRunLengthIsRefused :
    ({ ssAt (ssIn 1#3) [ssBeat (beat 1 2 3)] with
        cfg := { Config.defaults with syncRunLen := 0#8 } } : State).cfg.syncRunLen = 0#8 ∧
      nextBeatIs
        { ssAt (ssIn 1#3) [ssBeat (beat 1 2 3)] with cfg := { Config.defaults with syncRunLen := 0#8 } }
        .ss (beat 1 2 3) := ⟨rfl, rfl⟩

/-- Both clauses: an escape, and an address one off it. -/
theorem test_witness_SsAddrHiCombinesOrEscapes :
    wordOf (0x0055#16).toNat (beat 0x55 0 8).byte = State.reset.cfg.escAddr ∧
      wordOf (0x0054#16).toNat (beat 0x55 0 8).byte ≠ State.reset.cfg.escAddr := by decide

/-- The three clauses at their boundaries: one byte short, full, and over. -/
theorem test_witness_FbPayloadAppendsTheByte :
    (254#8).toNat < (255#8).toNat ∧ (3#8).toNat = (3#8).toNat ∧ (3#8).toNat < (4#8).toNat := by decide

/-- The four clauses: a row of the table, the fault row, an idle cycle, a reset. -/
theorem test_witness_SsNextStateIsTheTable :
    (ssAt { ssIn 6#3 with count := 1#16 } [ssBeat (beat 1 2 3)]).cfg.runLenLegal = true ∧
    nextBeatIs (ssAt { ssIn 6#3 with count := 1#16 } [ssBeat (beat 1 2 3)]) .ss (beat 1 2 3) ∧
    ssTable Config.defaults { ssIn 6#3 with count := 1#16 } (beat 1 2 3) = some (SsCode.addrLow, 4#4, false) ∧
    nextBeatIs (ssAt (ssIn 7#3) [ssBeat (beat 1 2 3)]) .ss (beat 1 2 3) ∧
    ssTable Config.defaults (ssIn 7#3) (beat 1 2 3) = none ∧
    nextDrive (ssAt (ssIn 6#3) [⟨.ss, false, false, noBeat⟩]) = ⟨.ss, false, false, noBeat⟩ ∧
    nextDrive (ssAt (ssIn 6#3) [⟨.ss, true, true, noBeat⟩]) = ⟨.ss, true, true, noBeat⟩ :=
  ⟨rfl, rfl, rfl, rfl, rfl, rfl, rfl⟩

/-- The four clauses: a payload row, the fault rows, an idle cycle, a reset. -/
theorem test_witness_FbNextStateIsTheTable :
    nextBeatIs (fbAt { fbIn 3#3 with dataLength := 1#8 } [] [fbBeat (beat 1 400 480)]) .fb (beat 1 400 480) ∧
    (fbIn 3#3).plCount < ({ fbIn 3#3 with dataLength := 1#8 } : FbRegs).dataLength ∧
    fbTable Config.defaults { fbIn 3#3 with dataLength := 1#8 } (beat 1 400 480) =
      some (FbCode.waitChecksum, false, 12#4) ∧
    nextBeatIs (fbAt (fbIn 4#3) [] [fbBeat (beat 1 400 480)]) .fb (beat 1 400 480) ∧
    fbTable Config.defaults (fbIn 4#3) (beat 1 400 480) = none ∧
    nextDrive (fbAt (fbIn 4#3) [] [⟨.fb, false, false, noBeat⟩]) = ⟨.fb, false, false, noBeat⟩ ∧
    nextDrive (fbAt (fbIn 4#3) [] [⟨.fb, true, true, noBeat⟩]) = ⟨.fb, true, true, noBeat⟩ :=
  ⟨rfl, by decide, rfl, rfl, rfl, rfl, rfl⟩

theorem test_witness_EventsOfAnEdge :
    (Instr.ssCntHi (beat 1 2 3)).unit = .ss ∧ (∃ t, exec (.ssCntHi (beat 1 2 3)) State.reset = .next t) ∧
    (Instr.fbGapAddr 3#3 (beat 1 2 3)).unit = .fb ∧
      ∃ t, exec (.fbGapAddr 3#3 (beat 1 2 3)) State.reset = .next t ∧ t.fb.gapPort ≠ none :=
  ⟨rfl, ⟨_, rfl⟩, rfl, ⟨_, rfl, by decide⟩⟩

theorem test_witness_DiagnosticCauses :
    (∃ t, exec (.ssDataLo (beat 1 2 3)) (ssAt (ssIn 5#3) []) = .next t) ∧
      ∃ t, exec (.fbGapAddr 3#3 (beat 1 2 3)) State.reset = .next t := ⟨⟨_, rfl⟩, ⟨_, rfl⟩⟩

theorem test_witness_EveryFbBeatUpdatesTheOffset :
    (Instr.fbPayload (beat 1 2 3)).unit = .fb ∧ (Instr.fbPayload (beat 1 2 3)).beat? = some (beat 1 2 3) := by decide

theorem test_witness_OnlyPayloadBeatsWriteTheBuffer :
    (∃ t, exec (.fbReset false false 5#3) (fbAt (fbIn 5#3) [(0, 1#8)] []) = .next t) ∧
      ∀ b, Instr.fbReset false false 5#3 ≠ .fbPayload b := ⟨⟨_, rfl⟩, fun _ h => nomatch h⟩

theorem test_witness_FramePayloadIsAtTheReadPort :
    ∃ t, exec (.fbChecksum (beat 7 400 480)) (fbAt { fbIn 5#3 with dataLength := 1#8 } [(0, 1#8)] []) = .next t :=
  ⟨_, rfl⟩

/-- The pins of a unit after reset, all at 0. -/
def quietPins : SsPins := ⟨false, 0#4, 0#64, 0#64, 0#16, 0#16, false, false, 0#2, 0#3, false⟩

/-- The three clauses: a valid port; two settings of the pins of a port that is not valid, one with stray data; an
operation that goes on, its pins as its event says (R92). -/
theorem test_witness_SsPinsShowTheEvent :
    (SsUnit.finish State.reset.ss SsRegs.reset (some (.ssCount 60#64 78#64 4#16)) none).evPort =
      some (.ssCount 60#64 78#64 4#16) ∧
    (State.reset.ss.evPort = none ∧ State.reset.ss.shows quietPins = true ∧
      State.reset.ss.shows { quietPins with evData := 5#16 } = true) ∧
    (Instr.ssCntHi (beat 0 70 78)).unit = .ss ∧
    ∃ t, exec (.ssCntHi (beat 0 70 78)) (ssAt { ssIn 4#3 with count := 4#16, fieldStart := 60#64 } []) = .next t ∧
      t.ss.shows ⟨true, 3#4, 60#64, 78#64, 0#16, 4#16, false, false, 0#2, 5#3, false⟩ = true :=
  ⟨rfl, by decide, rfl, ⟨_, rfl, by decide⟩⟩

theorem test_witness_FbPinsShowTheEvents :
    (Instr.fbGapAddr 3#3 (beat 1 2 3)).unit = .fb ∧
      ∃ t, exec (.fbGapAddr 3#3 (beat 1 2 3)) State.reset = .next t ∧
        t.fb.shows
          ⟨true, 0#64, 2#64, 2#64, true, 9#4, 2#64, 3#64, 1#8, 0#8, 0#8, 0#8, 0#8, true, 2#2, 1#3, 0#8⟩ = true :=
  ⟨rfl, ⟨_, rfl, by decide⟩⟩

theorem test_witness_StepKeepsTheConfiguration :
    ∃ t, step (ssAt (ssIn 1#3) [ssBeat (beat 1 2 3)]) = .next t := ⟨_, rfl⟩

/-- A state other than reset that meets the invariants: the second of three payload bytes is due. -/
def midFrame (ds : List Drive) : State :=
  fbAt { fbIn 3#3 with dataLength := 3#8, plCount := 1#8, plStart := 300#64 } [(0, 0x41#8)] ds

theorem test_witness_EveryStepKeepsTheInvariants :
    (midFrame [fbBeat (beat 0x42 400 480)]).Inv ∧ ∃ t, step (midFrame [fbBeat (beat 0x42 400 480)]) = .next t :=
  ⟨by decide, ⟨_, rfl⟩⟩

theorem test_witness_NoByteIsRefused :
    (midFrame [fbBeat (beat 0x42 400 480)]).Inv ∧
      ({ Config.defaults with syncRunLen := 255#8 } : Config).runLenLegal = true := by decide

/-- Unit FB's reset clears `fb.last_valid`; a reset or a sync hit of unit SS clears `ss.count_neg`. -/
theorem test_witness_WhatClearsTheFlags :
    ((midFrame [⟨.fb, true, false, noBeat⟩]).Inv ∧
      stepView (fun t => t.fb.regs.lastValid) (midFrame [⟨.fb, true, false, noBeat⟩]) = some false ∧
      (midFrame [⟨.fb, true, false, noBeat⟩]).fb.regs.lastValid = true) ∧
    ((ssAt { ssIn 5#3 with countNeg := true, run := 3#8 } [ssBeat (beat 0x55 30 38)]).Inv ∧
      stepView (fun t => t.ss.regs.countNeg)
        (ssAt { ssIn 5#3 with countNeg := true, run := 3#8 } [ssBeat (beat 0x55 30 38)]) = some false) ∧
    (ssAt { ssIn 5#3 with countNeg := true } [⟨.ss, true, false, noBeat⟩]).Inv ∧
      stepView (fun t => t.ss.regs.countNeg)
        (ssAt { ssIn 5#3 with countNeg := true } [⟨.ss, true, false, noBeat⟩]) = some false :=
  ⟨⟨by decide, by decide, by decide⟩, ⟨by decide, by decide⟩, by decide, by decide⟩

/-- The second and the third clause: a run of 2, and one of 3 in a field that has a bit above the width. -/
theorem test_witness_RunRegisterHasItsWidth :
    (∃ t, step (ssAt { ssIn 1#3 with run := 2#8 } [ssBeat (beat 0x55 0 8)]) = .next t) ∧
    (2#8).toNat < 2 ^ runWidth Config.defaults ∧
    (∃ t, step (ssAt { ssIn 1#3 with run := 3#8 } [ssBeat (beat 0x55 0 8)]) = .next t) ∧
    (7#8).toNat % 2 ^ runWidth Config.defaults = (3#8).toNat % 2 ^ runWidth Config.defaults :=
  ⟨⟨_, rfl⟩, by decide, ⟨_, rfl⟩, by decide⟩

/-- The three clauses: a count of 65535; the countdown at its largest and below zero at a low byte; at one, where the
record ends, at a high byte. -/
theorem test_witness_CountdownIsAnUnboundedInteger :
    (∃ t u, exec (.ssCntLo (beat 0xFF 0 8)) (ssAt (ssIn 3#3) []) = .next t ∧
      exec (.ssCntHi (beat 0xFF 10 18)) t = .next u) ∧
    (CountdownIs { ssIn 5#3 with count := 0xFFFF#16 } 65535 ∧
      ∃ t, exec (.ssDataLo (beat 1 0 8)) (ssAt { ssIn 5#3 with count := 0xFFFF#16 } []) = .next t) ∧
    CountdownIs { ssIn 5#3 with count := 0xFFFF#16, countNeg := true } (-1) ∧
    (CountdownIs { ssIn 6#3 with count := 1#16 } 1 ∧
      ∃ t, exec (.ssDataHi (beat 1 0 8)) (ssAt { ssIn 6#3 with count := 1#16 } []) = .next t) :=
  ⟨⟨_, _, rfl, rfl⟩, ⟨⟨by decide, by decide⟩, ⟨_, rfl⟩⟩, ⟨by decide, by decide⟩, ⟨by decide, by decide⟩, ⟨_, rfl⟩⟩

/-- A zero count at a low byte, and an odd one. -/
theorem test_witness_StuckRecordNeverEnds :
    (RecordStuck (ssIn 5#3) ∧ (∃ t, step (ssAt (ssIn 5#3) [ssBeat (beat 1 0 8)]) = .next t) ∧
      ssHit Config.defaults (ssIn 5#3) (beat 1 0 8) = false) ∧
    RecordStuck { ssIn 6#3 with count := 2#16 } :=
  ⟨⟨.inl ⟨rfl, .inr (.inl rfl)⟩, ⟨_, rfl⟩, by decide⟩, .inr ⟨rfl, .inr rfl⟩⟩

/-- A record at address 0x1055 of two bytes, the word 0x5512, about to be fed; two of its bytes are `SYNC_BYTE`. -/
def recordBytes : List Beat :=
  [beat 0x55 40 48, beat 0x10 50 58, beat 2 60 68, beat 0 70 78, beat 0x12 80 88, beat 0x55 90 98]

theorem test_witness_WellFormedRecordYieldsItsWrites :
    (ssAt (ssIn 1#3) (recordBytes.map ssBeat)).cfg.runLenLegal = true ∧ (ssIn 1#3).state = SsCode.addrLow ∧
    (ssAt (ssIn 1#3) (recordBytes.map ssBeat)).input =
      (beat 0x55 40 48 :: beat 0x10 50 58 :: beat 2 60 68 :: beat 0 70 78 ::
        recordBeats [(beat 0x12 80 88, beat 0x55 90 98)]).map ssBeat ++ [] ∧
    ssRun Config.defaults (ssIn 1#3) < Config.defaults.syncRunLen.toNat ∧
    NoSyncHit Config.defaults (ssRun Config.defaults (ssIn 1#3))
      (beat 0x55 40 48 :: beat 0x10 50 58 :: beat 2 60 68 :: beat 0 70 78 ::
        recordBeats [(beat 0x12 80 88, beat 0x55 90 98)]) ∧
    wordOf (beat 0x55 40 48).byte.toNat (beat 0x10 50 58).byte ≠ Config.defaults.escAddr ∧
    [(beat 0x12 80 88, beat 0x55 90 98)] ≠ [] ∧
    (beat 2 60 68).byte.toNat + 256 * (beat 0 70 78).byte.toNat = 2 * [(beat 0x12 80 88, beat 0x55 90 98)].length := by
  simp only [NoSyncHit, recordBeats]
  decide

/-- Eight sync bytes, two hits (R111 (d)), about to be fed. -/
def syncState : State := ssAt SsRegs.reset ((List.replicate 8 (beat 0x55 0 8)).map ssBeat)

theorem test_witness_SyncRunContainsItsHits :
    syncState.cfg.runLenLegal = true ∧ ssRun syncState.cfg syncState.ss.regs = 0 ∧
    syncState.ss.regs.state ≠ SsCode.unused ∧
    syncState.input = (List.replicate 8 (beat 0x55 0 8)).map ssBeat ++ [] ∧
    (List.replicate 8 (beat 0x55 0 8)).length = 2 * syncState.cfg.syncRunLen.toNat ∧
    ∀ b ∈ List.replicate 8 (beat 0x55 0 8), b.byte = syncState.cfg.syncByte := by decide

/-- The frame 5, 1, [41], 07 at pitch 20, about to be fed after reset. -/
def frameState : State :=
  fbAt FbRegs.reset []
    ([beat 5 1000 1016, beat 1 1020 1036, beat 1 1040 1056, beat 0x41 1060 1076, beat 7 1080 1096].map fbBeat)

theorem test_witness_BusFrameRoundTrip :
    frameState.fb.regs.state = FbCode.sync ∧ frameState.fb.regs.plCount = 0#8 ∧
    frameState.input =
      (beat 5 1000 1016 :: beat 1 1020 1036 :: beat 1 1040 1056 ::
        ([beat 0x41 1060 1076] ++ [beat 7 1080 1096])).map fbBeat ++ [] ∧
    NoResettingGap frameState.cfg frameState.fb.regs.lastValid frameState.fb.regs.lastEnd
      (beat 5 1000 1016 :: beat 1 1020 1036 :: beat 1 1040 1056 ::
        ([beat 0x41 1060 1076] ++ [beat 7 1080 1096])) ∧
    [beat 0x41 1060 1076].length = (beat 1 1040 1056).byte.toNat :=
  ⟨rfl, rfl, rfl, by simp only [NoResettingGap, List.cons_append, List.nil_append]; decide, rfl⟩

/-- The frame 5, 1, [41], 07, whose address byte comes 380 after the last byte of a frame in progress. -/
theorem test_witness_BusFrameAfterAResettingGap :
    (midFrame
        ((beat 5 760 776 :: beat 1 780 796 :: beat 1 800 816 :: ([beat 0x41 820 836] ++ [beat 7 840 856])).map
          fbBeat ++ [])).input =
      (beat 5 760 776 :: beat 1 780 796 :: beat 1 800 816 :: ([beat 0x41 820 836] ++ [beat 7 840 856])).map
        fbBeat ++ [] ∧
    (midFrame []).fb.regs.lastValid = true ∧
    (midFrame []).cfg.gapResetThreshold.toNat ≤ gapNat (midFrame []).fb.regs (beat 5 760 776) ∧
    NoResettingGap (midFrame []).cfg true (beat 5 760 776).es
      (beat 1 780 796 :: beat 1 800 816 :: ([beat 0x41 820 836] ++ [beat 7 840 856])) ∧
    [beat 0x41 820 836].length = (beat 1 800 816).byte.toNat :=
  ⟨rfl, rfl, by decide, by simp only [NoResettingGap, List.cons_append, List.nil_append]; decide, rfl⟩

/-- A gap of 300 in the middle of a frame. -/
theorem test_witness_ResettingGapForgetsTheFrame :
    nextBeatIs (midFrame [fbBeat (beat 1 680 760)]) .fb (beat 1 680 760) ∧
    fbG Config.defaults (midFrame []).fb.regs (beat 1 680 760) = true ∧
    ∃ t, steps 1 (midFrame [fbBeat (beat 1 680 760)]) = .next t := ⟨rfl, by decide, ⟨_, rfl⟩⟩

/-- A run with edges of both units, one of them idle. -/
def mixedRun : State :=
  ssAt (ssIn 1#3) [ssBeat (beat 0 40 48), fbBeat (beat 5 1000 1080), ⟨.ss, false, false, noBeat⟩,
    ssBeat (beat 0x10 50 58)]

theorem test_witness_UnitsDoNotInterfere : ∃ t, steps mixedRun.input.length mixedRun = .next t := ⟨_, rfl⟩

theorem test_witness_IdleCyclesAreInvisible :
    (∃ t, steps mixedRun.input.length mixedRun = .next t) ∧
      (mixedRun.input.filter (fun d => d.rst || d.inValid)).length = 3 := ⟨⟨_, rfl⟩, by decide⟩

end Sys2Proof.Tests
end

section
/-! # The next-state table of unit SS (spec/40_sync_stream_ops.md R121)

Each operation of unit SS meets its row of the table, and a beat selects the operation of the row that the table gives
it; the statement about `step` is put together from the two. -/

namespace Sys2Proof.Machine

/-! ## What a row of the table says of an edge -/

/-- The outcome of an edge that finds unit SS in state `code` is what a row of R121's table says: the next state, the
kind and the `esc` bit at the event port, or the fault. -/
def SsMeetsRow (o : Host.Outcome State Fault Refusal) (code : StateCode) :
    Option (StateCode × BitVec 4 × Bool) → Prop
  | some (q, kind, esc) =>
    ∃ t, o = .next t ∧ t.ss.regs.state = q ∧ portKind t.ss.evPort = kind ∧ portEsc t.ss.evPort = esc
  | none => o = .fault (.illegalState .ss code)

/-- The row that the end of a clock edge of unit SS meets. -/
theorem ssMeetsRow_finishSs (s : State) (code : StateCode) (r : SsRegs) (ev : Option Event) (dg : Option Diag) :
    SsMeetsRow (.next (s.finishSs r ev dg)) code (some (r.state, portKind ev, portEsc ev)) :=
  ⟨_, rfl, rfl, rfl, rfl⟩

/-! ## The predicates of the table -/

/-- The escape test on the assembled address. -/
theorem ssEsc_iff (c : Config) (r : SsRegs) (b : Beat) :
    ssEsc c r b = true ↔ wordOf r.address.toNat b.byte = c.escAddr := by
  rw [ssEsc, beq_iff_eq, withHighByte_eq_wordOf]

/-- The end-of-record test, in the table's words. -/
theorem ssRecordEnds_dec_iff (r : SsRegs) :
    ssRecordEnds (decCount r) (decCountNeg r) = true ↔ r.count = 1#16 ∧ r.countNeg = false := by
  rw [ssRecordEnds_dec, BitVec.toNat_eq]
  rfl

/-- The table, its rows in the order in which a beat selects its operation (`ssSelects`). -/
theorem ssTable_eq (c : Config) (r : SsRegs) (b : Beat) :
    ssTable c r b =
      if ssHit c r b then some (SsCode.addrLow, 1#4, false)
      else if r.state = SsCode.awaitSync then some (SsCode.awaitSync, 0#4, false)
      else if r.state = SsCode.addrLow then some (SsCode.addrHigh, 0#4, false)
      else if r.state = SsCode.addrHigh then
        if wordOf r.address.toNat b.byte = c.escAddr then some (SsCode.awaitSync, 2#4, true)
        else some (SsCode.countLow, 2#4, false)
      else if r.state = SsCode.countLow then some (SsCode.countHigh, 0#4, false)
      else if r.state = SsCode.countHigh then some (SsCode.dataLow, 3#4, false)
      else if r.state = SsCode.dataLow then some (SsCode.dataHigh, 0#4, false)
      else if r.state = SsCode.dataHigh then
        if r.count = 1#16 ∧ r.countNeg = false then some (SsCode.addrLow, 4#4, false)
        else some (SsCode.dataLow, 4#4, false)
      else none := by
  refine if_congr (ssHit_iff c b r).symm rfl ?_
  rcases stateCode_cases r.state with h | h | h | h | h | h | h | h <;> rw [h] <;> rfl

/-! ## The row of each operation -/

section Rows

variable (b : Beat) (s : State) (code : StateCode)

theorem ssSync_meetsRow (operand : StateCode) :
    SsMeetsRow (exec (.ssSync operand b) s) code (some (SsCode.addrLow, 1#4, false)) :=
  ssMeetsRow_finishSs ..

/-- The matcher does not write `ss.state`. -/
theorem ssIdle_meetsRow : SsMeetsRow (exec (.ssIdle b) s) code (some (s.ss.regs.state, 0#4, false)) := by
  rw [← syncMatcher_state s.cfg b s.ss.regs]
  exact ssMeetsRow_finishSs ..

theorem ssAddrLo_meetsRow : SsMeetsRow (exec (.ssAddrLo b) s) code (some (SsCode.addrHigh, 0#4, false)) :=
  ssMeetsRow_finishSs ..

/-- The two rows of `ADDR_HIGH`. -/
theorem ssAddrHi_meetsRow :
    SsMeetsRow (exec (.ssAddrHi b) s) code
      (if wordOf s.ss.regs.address.toNat b.byte = s.cfg.escAddr then some (SsCode.awaitSync, 2#4, true)
       else some (SsCode.countLow, 2#4, false)) := by
  have hrow : SsMeetsRow (exec (.ssAddrHi b) s) code
      (some (if ssEsc s.cfg s.ss.regs b then SsCode.awaitSync else SsCode.countLow, 2#4,
        ssEsc s.cfg s.ss.regs b)) := ssMeetsRow_finishSs ..
  simp only [← ssEsc_iff]
  cases hesc : ssEsc s.cfg s.ss.regs b <;> simpa [hesc] using hrow

theorem ssCntLo_meetsRow : SsMeetsRow (exec (.ssCntLo b) s) code (some (SsCode.countHigh, 0#4, false)) :=
  ssMeetsRow_finishSs ..

theorem ssCntHi_meetsRow : SsMeetsRow (exec (.ssCntHi b) s) code (some (SsCode.dataLow, 3#4, false)) :=
  ssMeetsRow_finishSs ..

theorem ssDataLo_meetsRow : SsMeetsRow (exec (.ssDataLo b) s) code (some (SsCode.dataHigh, 0#4, false)) :=
  ssMeetsRow_finishSs ..

/-- The two rows of `DATA_HIGH`. -/
theorem ssDataHi_meetsRow :
    SsMeetsRow (exec (.ssDataHi b) s) code
      (if s.ss.regs.count = 1#16 ∧ s.ss.regs.countNeg = false then some (SsCode.addrLow, 4#4, false)
       else some (SsCode.dataLow, 4#4, false)) := by
  have hrow : SsMeetsRow (exec (.ssDataHi b) s) code
      (some (if ssRecordEnds (decCount s.ss.regs) (decCountNeg s.ss.regs) then SsCode.addrLow else SsCode.dataLow,
        4#4, false)) := ssMeetsRow_finishSs ..
  simp only [← ssRecordEnds_dec_iff]
  cases hends : ssRecordEnds (decCount s.ss.regs) (decCountNeg s.ss.regs) <;> simpa [hends] using hrow

theorem ssIllegal_meetsRow : SsMeetsRow (exec (.ssIllegal b) s) s.ss.regs.state none := rfl

end Rows

/-! ## Edges of unit SS -/

/-- The operation that a beat selects meets the table's row for the beat. -/
theorem ssSelects_meetsRow (b : Beat) (s : State) :
    SsMeetsRow (exec (ssSelects s.cfg s.ss.regs b) s) s.ss.regs.state (ssTable s.cfg s.ss.regs b) := by
  rw [ssTable_eq]
  unfold ssSelects
  split
  case isTrue => exact ssSync_meetsRow ..
  split
  case isTrue hq => rw [← hq]; exact ssIdle_meetsRow ..
  split
  case isTrue => exact ssAddrLo_meetsRow ..
  split
  case isTrue => exact ssAddrHi_meetsRow ..
  split
  case isTrue => exact ssCntLo_meetsRow ..
  split
  case isTrue => exact ssCntHi_meetsRow ..
  split
  case isTrue => exact ssDataLo_meetsRow ..
  split
  case isTrue => exact ssDataHi_meetsRow ..
  exact ssIllegal_meetsRow ..

/-- A beat of unit SS meets the table's row for it. -/
theorem step_meetsRow {s : State} {b : Beat} (hl : s.cfg.runLenLegal = true) (hd : nextBeatIs s .ss b) :
    SsMeetsRow (step s) s.ss.regs.state (ssTable s.cfg s.ss.regs b) := by
  rw [step_of_ssBeat hl hd]
  exact ssSelects_meetsRow b s.consume

/-- An idle cycle of unit SS, under any `SYNC_RUN_LEN`. -/
theorem step_of_ssIdleCycle {s : State} {b : Beat} (hd : nextDrive s = ⟨.ss, false, false, b⟩) :
    step s = .next (s.consume.finishSs s.ss.regs none none) := by
  rw [step_eq_selects (by simp [runLenUnusable, hd]), hd]
  rfl

/-- A reset of unit SS, under any `SYNC_RUN_LEN`. -/
theorem step_of_ssResetCycle {s : State} {v : Bool} {b : Beat} (hd : nextDrive s = ⟨.ss, true, v, b⟩) :
    step s = .next (s.consume.finishSs SsRegs.reset none none) := by
  rw [step_eq_selects (by simp [runLenUnusable, hd]), hd]
  rfl

/-- Settles O29: a beat meets its row of the table (`step_meetsRow`), an idle cycle keeps the registers, a reset puts
them at their reset values. -/
theorem ssNextStateIsTheTable : Obligations.SsNextStateIsTheTable := by
  unfold Obligations.SsNextStateIsTheTable
  refine ⟨fun s b q kind esc hl hd hrow => ?_, fun s b hl hd hrow => ?_, fun s b hd => ?_, fun s v b hd => ?_⟩
  · have hmeets := step_meetsRow hl hd
    rwa [hrow] at hmeets
  · have hmeets := step_meetsRow hl hd
    rwa [hrow] at hmeets
  · exact ⟨_, step_of_ssIdleCycle hd, rfl⟩
  · exact ⟨_, step_of_ssResetCycle hd, rfl⟩

end Sys2Proof.Machine
end

section
/-! # The operations of unit FB and its next-state table (spec/41_framed_bus_ops.md R143, R145, R150, R152)

The rules of an edge of unit FB come first. Each operation then meets its row of the table, and a beat selects the
operation of the row that the table gives it; the statement about `step` is put together from the two. -/

namespace Sys2Proof.Machine

/-! ## The end of an edge -/

/-- All that the end of a clock edge of unit FB does beside `PL`. -/
theorem fbEdgeDone_finishFb (s : State) (r : FbRegs) (pl : Memory) (gap ev : Option Event) (dg : Option Diag) :
    FbEdgeDone s (s.finishFb r pl gap ev dg) r gap ev dg :=
  ⟨⟨rfl, rfl, rfl⟩, rfl, by simp [FbPuts]⟩

/-- Settles O24: `FB.ADDR` ends its edge with the address taken and the offset update made. -/
theorem fbAddrTakesTheAddress : Obligations.FbAddrTakesTheAddress :=
  fun _ _ => ⟨rfl, _, rfl, fbEdgeDone_finishFb .., rfl⟩

/-- Settles O25: `FB.MSGTYPE` ends its edge with the message type taken and the offset update made. -/
theorem fbMsgTypeTakesTheMessageType : Obligations.FbMsgTypeTakesTheMessageType :=
  fun _ _ => ⟨rfl, _, rfl, fbEdgeDone_finishFb .., rfl⟩

/-- All an operation of unit FB that consumes a beat can be: an edge whose registers come out of the offset update, or
the fault. -/
theorem exec_fb_beat {i : Instr} {b : Beat} (s : State) (hu : i.unit = .fb) (hb : i.beat? = some b) :
    (∃ r pl gap ev dg, exec i s = .next (s.finishFb (offsetUpdate b r) pl gap ev dg)) ∨
      exec i s = .fault (.illegalState .fb s.fb.regs.state) := by
  cases i <;> cases hu <;> cases hb
  case fbWaitData => exact .inr rfl
  case fbIllegal => exact .inr rfl
  all_goals exact .inl ⟨_, _, _, _, _, rfl⟩

/-- Settles O33: the registers that a beat leaves come out of the offset update (`exec_fb_beat`). -/
theorem everyFbBeatUpdatesTheOffset : Obligations.EveryFbBeatUpdatesTheOffset := by
  unfold Obligations.EveryFbBeatUpdatesTheOffset
  intro i b s hu hb
  refine (exec_fb_beat s hu hb).imp_left ?_
  rintro ⟨r, pl, gap, ev, dg, hexec⟩
  exact ⟨_, hexec, offsetUpdate_lastEnd b r, offsetUpdate_lastValid b r⟩

/-! ## What a row of the table says of an edge -/

/-- The outcome of an edge that finds unit FB in state `code` is what a row of R152's table says: the next state,
whether the gap port shows `FB_GAP` and the kind at the event port, or the fault. -/
def FbMeetsRow (o : Host.Outcome State Fault Refusal) (code : StateCode) :
    Option (StateCode × Bool × BitVec 4) → Prop
  | some (q, gap, kind) =>
    ∃ t, o = .next t ∧ t.fb.regs.state = q ∧ portKind t.fb.gapPort = (if gap then 8#4 else 0#4) ∧
      portKind t.fb.evPort = kind
  | none => o = .fault (.illegalState .fb code)

/-- The row that the end of a clock edge of unit FB without a gap event meets. -/
theorem fbMeetsRow_finishFb (s : State) (code : StateCode) (r : FbRegs) (pl : Memory) (ev : Option Event)
    (dg : Option Diag) :
    FbMeetsRow (.next (s.finishFb r pl none ev dg)) code (some (r.state, false, portKind ev)) :=
  ⟨_, rfl, rfl, rfl, rfl⟩

/-! ## The predicates of the table -/

/-- The gap port shows `FB_GAP` exactly when the gap is below the ceiling. -/
theorem portKind_gapEvent (c : Config) (r : FbRegs) (b : Beat) :
    portKind (gapEvent c r b) = if decide (gapNat r b < c.gapNoiseCeiling.toNat) then 8#4 else 0#4 := by
  rw [gapEvent_eq]
  by_cases h : gapNat r b < c.gapNoiseCeiling.toNat
  · simp [h, portKind, Event.kindCode]
  · simp [h, portKind]

/-- While there is room, the byte completes the payload when the count stands one below the length. -/
theorem fbDone_iff_of_lt {r : FbRegs} (h : r.plCount < r.dataLength) :
    fbDone r = true ↔ r.plCount.toNat + 1 = r.dataLength.toNat := by
  have hlt : r.plCount.toNat < r.dataLength.toNat := BitVec.lt_def.mp h
  have hlen := r.dataLength.isLt
  rw [fbDone, fbPlCountAfter, fbRoom, decide_eq_true h, if_pos rfl, beq_iff_eq, BitVec.toNat_eq,
    BitVec.toNat_add_of_lt (by simp only [BitVec.toNat_ofNat]; omega)]
  rfl

/-- A frame is a broadcast when its address is zero. -/
theorem fbBcast_iff (r : FbRegs) : fbBcast r = true ↔ r.address = 0#8 := beq_iff_eq

/-- The table, its rows in the order in which a beat selects its operation (`fbSelects`). -/
theorem fbTable_eq (c : Config) (r : FbRegs) (b : Beat) :
    fbTable c r b =
      if fbG c r b then some (FbCode.waitAddress, decide (gapNat r b < c.gapNoiseCeiling.toNat), 9#4)
      else if r.state = FbCode.sync then some (FbCode.waitAddress, false, 9#4)
      else if r.state = FbCode.waitAddress then some (FbCode.waitMsgType, false, 10#4)
      else if r.state = FbCode.waitMsgType then
        if b.byte = 0#8 then some (FbCode.waitChecksum, false, 11#4)
        else some (FbCode.waitDataLength, false, 11#4)
      else if r.state = FbCode.waitDataLength then
        if r.plCount.toNat + 1 = r.dataLength.toNat then some (FbCode.waitChecksum, false, 12#4)
        else some (FbCode.waitDataLength, false, 0#4)
      else if r.state = FbCode.waitData then none
      else if r.state = FbCode.waitChecksum then
        if r.address = 0#8 then some (FbCode.sync, false, 13#4)
        else some (FbCode.waitChecksum, false, 13#4)
      else none := by
  refine if_congr (fbG_iff c b r).symm rfl ?_
  rcases stateCode_cases r.state with h | h | h | h | h | h | h | h <;> rw [h] <;> rfl

/-- The two rows of `WAIT_DATALENGTH`, neither of them a fault row. -/
theorem fbTable_waitDataLength {c : Config} {r : FbRegs} {b : Beat} (hg : fbG c r b = false)
    (hq : r.state = FbCode.waitDataLength) :
    fbTable c r b =
      if r.plCount.toNat + 1 = r.dataLength.toNat then some (FbCode.waitChecksum, false, 12#4)
      else some (FbCode.waitDataLength, false, 0#4) := by
  rw [fbTable_eq, hg, hq]
  rfl

/-- A beat without a resetting gap that meets a fault row finds unit FB outside `WAIT_DATALENGTH`. -/
theorem state_ne_waitDataLength_of_fbTable {c : Config} {r : FbRegs} {b : Beat} (hg : fbG c r b = false)
    (hrow : fbTable c r b = none) : r.state ≠ FbCode.waitDataLength := by
  intro hq
  rw [fbTable_waitDataLength hg hq] at hrow
  split at hrow <;> cases hrow

/-! ## The row of each operation -/

section Rows

variable (b : Beat) (s : State) (code : StateCode)

/-- The one row with a gap event. -/
theorem fbGapAddr_meetsRow (operand : StateCode) :
    FbMeetsRow (exec (.fbGapAddr operand b) s) code
      (some (FbCode.waitAddress, decide (gapNat s.fb.regs b < s.cfg.gapNoiseCeiling.toNat), 9#4)) :=
  ⟨_, rfl, rfl, portKind_gapEvent .., rfl⟩

theorem fbAddr_meetsRow : FbMeetsRow (exec (.fbAddr b) s) code (some (FbCode.waitAddress, false, 9#4)) :=
  fbMeetsRow_finishFb ..

theorem fbMsgType_meetsRow : FbMeetsRow (exec (.fbMsgType b) s) code (some (FbCode.waitMsgType, false, 10#4)) :=
  fbMeetsRow_finishFb ..

/-- The two rows of `WAIT_MSGTYPE`. -/
theorem fbDataLen_meetsRow :
    FbMeetsRow (exec (.fbDataLen b) s) code
      (if b.byte = 0#8 then some (FbCode.waitChecksum, false, 11#4)
       else some (FbCode.waitDataLength, false, 11#4)) := by
  have hrow : FbMeetsRow (exec (.fbDataLen b) s) code
      (some (if b.byte = 0#8 then FbCode.waitChecksum else FbCode.waitDataLength, false, 11#4)) :=
    fbMeetsRow_finishFb ..
  by_cases hz : b.byte = 0#8 <;> simpa [hz] using hrow

/-- The two rows of `WAIT_DATALENGTH`: the state register is written by the completing byte alone. -/
theorem fbPayload_meetsRow (hlt : s.fb.regs.plCount < s.fb.regs.dataLength) :
    FbMeetsRow (exec (.fbPayload b) s) code
      (if s.fb.regs.plCount.toNat + 1 = s.fb.regs.dataLength.toNat then some (FbCode.waitChecksum, false, 12#4)
       else some (s.fb.regs.state, false, 0#4)) := by
  have hrow : FbMeetsRow (exec (.fbPayload b) s) code
      (some (if fbDone s.fb.regs then FbCode.waitChecksum else s.fb.regs.state, false,
        portKind (if fbDone s.fb.regs then some (.fbPayload
          (if s.fb.regs.plCount = 0#8 then b.ss else s.fb.regs.plStart) b.es s.fb.regs.dataLength) else none))) :=
    fbMeetsRow_finishFb ..
  simp only [← fbDone_iff_of_lt hlt]
  cases hdone : fbDone s.fb.regs <;> rw [hdone] at hrow <;> exact hrow

/-- The two rows of `WAIT_CHECKSUM`: the state register is written on a broadcast alone (decision D19). -/
theorem fbChecksum_meetsRow :
    FbMeetsRow (exec (.fbChecksum b) s) code
      (if s.fb.regs.address = 0#8 then some (FbCode.sync, false, 13#4)
       else some (s.fb.regs.state, false, 13#4)) := by
  have hrow : FbMeetsRow (exec (.fbChecksum b) s) code
      (some ((if fbBcast s.fb.regs then frameReset { s.fb.regs with checksum := b.byte }
        else { s.fb.regs with checksum := b.byte }).state, false, 13#4)) :=
    fbMeetsRow_finishFb ..
  simp only [← fbBcast_iff]
  cases hbcast : fbBcast s.fb.regs <;> rw [hbcast] at hrow <;> exact hrow

theorem fbWaitData_meetsRow : FbMeetsRow (exec (.fbWaitData b) s) s.fb.regs.state none := rfl

theorem fbIllegal_meetsRow (operand : StateCode) :
    FbMeetsRow (exec (.fbIllegal operand b) s) s.fb.regs.state none := rfl

end Rows

/-! ## Edges of unit FB -/

/-- The operation that a beat selects meets the table's row for the beat, a payload beat where there is room for it. -/
theorem fbSelects_meetsRow {b : Beat} {s : State}
    (hroom : fbG s.cfg s.fb.regs b = false → s.fb.regs.state = FbCode.waitDataLength →
      s.fb.regs.plCount < s.fb.regs.dataLength) :
    FbMeetsRow (exec (fbSelects s.cfg s.fb.regs b) s) s.fb.regs.state (fbTable s.cfg s.fb.regs b) := by
  rw [fbTable_eq]
  unfold fbSelects
  split
  case isTrue => exact fbGapAddr_meetsRow ..
  case isFalse hg =>
  split
  case isTrue => exact fbAddr_meetsRow ..
  split
  case isTrue => exact fbMsgType_meetsRow ..
  split
  case isTrue => exact fbDataLen_meetsRow ..
  split
  case isTrue hq => simpa only [hq] using fbPayload_meetsRow b s s.fb.regs.state (hroom (by simpa using hg) hq)
  split
  case isTrue => exact fbWaitData_meetsRow ..
  split
  case isTrue hq => simpa only [hq] using fbChecksum_meetsRow b s s.fb.regs.state
  exact fbIllegal_meetsRow ..

/-- A beat of unit FB meets the table's row for it, a payload beat where there is room for it. -/
theorem step_meetsFbRow {s : State} {b : Beat} (hd : nextBeatIs s .fb b)
    (hroom : fbG s.cfg s.fb.regs b = false → s.fb.regs.state = FbCode.waitDataLength →
      s.fb.regs.plCount < s.fb.regs.dataLength) :
    FbMeetsRow (step s) s.fb.regs.state (fbTable s.cfg s.fb.regs b) := by
  rw [step_of_fbBeat hd]
  exact fbSelects_meetsRow (s := s.consume) hroom

/-- An idle cycle of unit FB. -/
theorem step_of_fbIdleCycle {s : State} {b : Beat} (hd : nextDrive s = ⟨.fb, false, false, b⟩) :
    step s = .next (s.consume.finishFb s.fb.regs s.fb.pl none none none) := by
  rw [step_eq_selects (runLenUnusable_of_fb (by rw [hd])), hd]
  rfl

/-- A reset of unit FB. -/
theorem step_of_fbResetCycle {s : State} {v : Bool} {b : Beat} (hd : nextDrive s = ⟨.fb, true, v, b⟩) :
    step s = .next (s.consume.finishFb FbRegs.reset s.fb.pl none none none) := by
  rw [step_eq_selects (runLenUnusable_of_fb (by rw [hd])), hd]
  rfl

/-- Settles O30: a beat meets its row of the table (`step_meetsFbRow`), an idle cycle keeps the registers, a reset puts
them at their reset values. -/
theorem fbNextStateIsTheTable : Obligations.FbNextStateIsTheTable := by
  unfold Obligations.FbNextStateIsTheTable
  refine ⟨fun s b q gap kind hd hroom hrow => ?_, fun s b hd hrow => ?_, fun s b hd => ?_, fun s v b hd => ?_⟩
  · have hmeets := step_meetsFbRow hd hroom
    rwa [hrow] at hmeets
  · have hmeets := step_meetsFbRow hd fun hg hq => absurd hq (state_ne_waitDataLength_of_fbTable hg hrow)
    rwa [hrow] at hmeets
  · exact ⟨_, step_of_fbIdleCycle hd, rfl⟩
  · exact ⟨_, step_of_fbResetCycle hd, rfl⟩

end Sys2Proof.Machine
end

section
/-! # No byte is refused (spec/60_exceptions.md R170)

An edge faults at a beat alone, and only in a state code without an operation: code 7 of unit SS, codes 4, 6 and 7 of
unit FB (spec/30_encoding.md R95, R96). No edge of either unit leaves its state register at such a code, so a run that
starts at none of them goes on for ever. -/

namespace Sys2Proof.Machine

/-! ## The state codes at which a beat has an operation -/

/-- The state codes of unit FB at which a beat has an operation (spec/10_state.md R50 (a)). -/
abbrev FbServedCode (q : StateCode) : Prop :=
  q = FbCode.sync ∨ q = FbCode.waitAddress ∨ q = FbCode.waitMsgType ∨ q = FbCode.waitDataLength ∨
    q = FbCode.waitChecksum

/-- The part of the invariants that keeps a run going: a legal run length, and each unit at a state code at which a beat
has an operation. -/
def State.Served (s : State) : Prop :=
  s.cfg.runLenLegal = true ∧ s.ss.regs.state ≠ SsCode.unused ∧ FbServedCode s.fb.regs.state

/-- The invariants place each unit at a state code with an operation. -/
theorem State.Inv.served {s : State} (h : s.Inv) : s.Served := by
  obtain ⟨hlegal, ⟨hss, -⟩, ⟨hfb, -⟩⟩ := h
  exact ⟨hlegal, hss, hfb⟩

/-- After reset, under any legal configuration and whatever the host drives. -/
theorem State.served_reset {c : Config} (drives : List Drive) (h : c.runLenLegal = true) :
    State.Served { State.reset with cfg := c, input := drives } :=
  ⟨h, show SsRegs.reset.state ≠ SsCode.unused by decide, .inl rfl⟩

/-! ## Unit SS -/

/-- The edge goes on, and leaves `ss.state` at a code with an operation. -/
def SsGoesOn (o : Host.Outcome State Fault Refusal) : Prop :=
  ∃ t, o = .next t ∧ t.ss.regs.state ≠ SsCode.unused

/-- Outside the unused code, the table of R121 has no fault row and leads to no unused code. -/
theorem ssTable_of_ne_unused (c : Config) {r : SsRegs} (b : Beat) (h : r.state ≠ SsCode.unused) :
    ∃ q kind esc, ssTable c r b = some (q, kind, esc) ∧ q ≠ SsCode.unused := by
  rw [ssTable_eq]
  split
  case isTrue => exact ⟨_, _, _, rfl, by decide⟩
  rcases stateCode_cases r.state with hq | hq | hq | hq | hq | hq | hq | hq
  · exact ⟨_, _, _, by rw [hq]; rfl, by decide⟩
  · exact ⟨_, _, _, by rw [hq]; rfl, by decide⟩
  · by_cases hesc : wordOf r.address.toNat b.byte = c.escAddr
    · exact ⟨_, _, _, by rw [hq]; exact if_pos hesc, by decide⟩
    · exact ⟨_, _, _, by rw [hq]; exact if_neg hesc, by decide⟩
  · exact ⟨_, _, _, by rw [hq]; rfl, by decide⟩
  · exact ⟨_, _, _, by rw [hq]; rfl, by decide⟩
  · exact ⟨_, _, _, by rw [hq]; rfl, by decide⟩
  · by_cases hend : r.count = 1#16 ∧ r.countNeg = false
    · exact ⟨_, _, _, by rw [hq]; exact if_pos hend, by decide⟩
    · exact ⟨_, _, _, by rw [hq]; exact if_neg hend, by decide⟩
  · exact absurd hq h

/-- A row that is no fault row leads to the code it names. -/
theorem SsMeetsRow.goesOn {o : Host.Outcome State Fault Refusal} {code q : StateCode} {kind : BitVec 4} {esc : Bool}
    (h : SsMeetsRow o code (some (q, kind, esc))) (hq : q ≠ SsCode.unused) : SsGoesOn o := by
  obtain ⟨t, ho, rfl, -, -⟩ := h
  exact ⟨t, ho, hq⟩

/-- An edge of unit SS: a reset, an idle cycle, or a beat, which meets its row of the table. -/
theorem ssEdge_goesOn {s : State} (hu : (nextDrive s).unit = .ss) (hl : s.cfg.runLenLegal = true)
    (hs : s.ss.regs.state ≠ SsCode.unused) : SsGoesOn (step s) := by
  rcases hd : nextDrive s with ⟨u, rst, inValid, b⟩
  obtain rfl : u = .ss := by simpa [hd] using hu
  match rst, inValid with
  | true, _ => exact ⟨_, step_of_ssResetCycle hd, show SsRegs.reset.state ≠ SsCode.unused by decide⟩
  | false, false => exact ⟨_, step_of_ssIdleCycle hd, hs⟩
  | false, true =>
    obtain ⟨q, kind, esc, hrow, hq⟩ := ssTable_of_ne_unused s.cfg b hs
    have hmeets := step_meetsRow hl hd
    rw [hrow] at hmeets
    exact hmeets.goesOn hq

/-! ## Unit FB -/

/-- The edge goes on, and leaves `fb.state` at a code with an operation. -/
def FbGoesOn (o : Host.Outcome State Fault Refusal) : Prop :=
  ∃ t, o = .next t ∧ FbServedCode t.fb.regs.state

section Operations

variable (b : Beat) (s : State)

/-- A resetting gap leads to `WAIT_ADDRESS` from every code. -/
theorem fbGapAddr_goesOn (operand : StateCode) : FbGoesOn (exec (.fbGapAddr operand b) s) :=
  ⟨_, rfl, .inr (.inl rfl)⟩

theorem fbAddr_goesOn : FbGoesOn (exec (.fbAddr b) s) := ⟨_, rfl, .inr (.inl rfl)⟩

theorem fbMsgType_goesOn : FbGoesOn (exec (.fbMsgType b) s) := ⟨_, rfl, .inr (.inr (.inl rfl))⟩

/-- A zero length skips the payload (C3). -/
theorem fbDataLen_goesOn : FbGoesOn (exec (.fbDataLen b) s) := by
  refine ⟨_, rfl, ?_⟩
  rw [State.finishFb_regs, offsetUpdate_state]
  by_cases hz : b.byte = 0#8
  · exact .inr (.inr (.inr (.inr (if_pos hz))))
  · exact .inr (.inr (.inr (.inl (if_neg hz))))

/-- The completing byte leads to `WAIT_CHECKSUM`; any other leaves the code, with room in the payload or without. -/
theorem fbPayload_goesOn (hq : FbServedCode s.fb.regs.state) : FbGoesOn (exec (.fbPayload b) s) := by
  refine ⟨_, rfl, ?_⟩
  rw [State.finishFb_regs, offsetUpdate_state]
  cases hdone : fbDone s.fb.regs
  · exact hq
  · exact .inr (.inr (.inr (.inr rfl)))

/-- A broadcast resets the frame; any other frame leaves the code (decision D19). -/
theorem fbChecksum_goesOn (hq : FbServedCode s.fb.regs.state) : FbGoesOn (exec (.fbChecksum b) s) := by
  refine ⟨_, rfl, ?_⟩
  rw [State.finishFb_regs, offsetUpdate_state]
  cases hbcast : fbBcast s.fb.regs
  · exact hq
  · exact .inl rfl

end Operations

/-- A beat of unit FB selects, at each of these codes, an operation that goes on. -/
theorem fbSelects_goesOn (b : Beat) {s : State} (hs : FbServedCode s.fb.regs.state) :
    FbGoesOn (exec (fbSelects s.cfg s.fb.regs b) s) := by
  unfold fbSelects
  split
  case isTrue => exact fbGapAddr_goesOn ..
  rcases id hs with hq | hq | hq | hq | hq <;> rw [hq]
  · exact fbAddr_goesOn ..
  · exact fbMsgType_goesOn ..
  · exact fbDataLen_goesOn ..
  · exact fbPayload_goesOn b s hs
  · exact fbChecksum_goesOn b s hs

/-- An edge of unit FB: a reset, an idle cycle, or a beat. -/
theorem fbEdge_goesOn {s : State} (hu : (nextDrive s).unit = .fb) (hs : FbServedCode s.fb.regs.state) :
    FbGoesOn (step s) := by
  rcases hd : nextDrive s with ⟨u, rst, inValid, b⟩
  obtain rfl : u = .fb := by simpa [hd] using hu
  match rst, inValid with
  | true, _ => exact ⟨_, step_of_fbResetCycle hd, .inl rfl⟩
  | false, false => exact ⟨_, step_of_fbIdleCycle hd, hs⟩
  | false, true =>
    rw [step_of_fbBeat hd]
    exact fbSelects_goesOn b (s := s.consume) hs

/-! ## Steps and runs -/

/-- From a state with each unit at a code with an operation the step goes on, to such a state again: the unit whose edge
it is by its own lemma, the other unit because it does not move. -/
theorem step_goesOn {s : State} (h : s.Served) : ∃ t, step s = .next t ∧ t.Served := by
  obtain ⟨hlegal, hss, hfb⟩ := h
  cases hu : (nextDrive s).unit with
  | ss =>
    obtain ⟨t, ht, hss'⟩ := ssEdge_goesOn hu hlegal hss
    obtain ⟨hcfg, hother, -⟩ := exec_ss_local ((selects_unit s _).trans hu) (exec_of_step ht)
    exact ⟨t, ht, by rwa [hcfg], hss', by rwa [hother]⟩
  | fb =>
    obtain ⟨t, ht, hfb'⟩ := fbEdge_goesOn hu hfb
    obtain ⟨hcfg, hother, -⟩ := exec_fb_local ((selects_unit s _).trans hu) (exec_of_step ht)
    exact ⟨t, ht, by rwa [hcfg], by rwa [hother], hfb'⟩

/-- A run of any length goes on. -/
theorem steps_goesOn (n : Nat) {s : State} (h : s.Served) : ∃ t, steps n s = .next t := by
  induction n generalizing s with
  | zero => exact ⟨s, rfl⟩
  | succ n ih =>
    obtain ⟨t, ht, hserved⟩ := step_goesOn h
    rw [steps_succ_of_next ht]
    exact ih hserved

/-- Settles O42: the invariants and reset both place the units at state codes with an operation (`State.Inv.served`,
`State.served_reset`), and from there every step (`step_goesOn`) and every run (`steps_goesOn`) goes on. -/
theorem noByteIsRefused : Obligations.NoByteIsRefused := by
  unfold Obligations.NoByteIsRefused
  refine ⟨fun s hinv => ?_, fun c drives n hlegal => ?_⟩
  · obtain ⟨t, ht, -⟩ := step_goesOn hinv.served
    exact ⟨t, ht⟩
  · exact steps_goesOn n (State.served_reset drives hlegal)

end Sys2Proof.Machine
end

section
/-! # The byte layout (spec/30_encoding.md R80, R88, R89; log 4)

An instruction's header and beat determine it, and the rows of a unit's table give back the instruction that its
dispatch word and beat come from. Both directions of the round trip rest on that one correspondence. -/

namespace Sys2Proof.Machine

/-! ## Instructions and rows -/

/-- An operation consumes a beat exactly when its dispatch word says so. -/
theorem dispatchHasBeat_dispatch (i : Instr) : dispatchHasBeat i.dispatch = i.beat?.isSome := by
  cases i <;> simp [Instr.dispatch, Instr.beat?, dispatchHasBeat]

/-- The bytes of an instruction, in the form in which a clock edge fetches them. -/
theorem encode_eq (i : Instr) :
    encode i =
      headerByte i.unit i.dispatch ::
        (if dispatchHasBeat i.dispatch then beatBytes (i.beat?.getD noBeat) else []) := by
  rw [encode, dispatchHasBeat_dispatch]
  cases i.beat? <;> rfl

/-- The row `FB.ILLEGAL` stands behind every other row of its table. -/
theorem fbIllegal_code {code : StateCode} {b : Beat} (h : (Instr.fbIllegal code b).wellFormed = true) :
    code = 6#3 ∨ code = 7#3 := by
  have h' : (code.extractLsb' 1 2 == 3#2) = true := h
  clear h
  revert code; decide

/-- The row of a well-formed instruction's dispatch word builds it back from its beat. -/
theorem rowInstr_dispatch {i : Instr} (h : i.wellFormed = true) :
    rowInstr i.unit i.dispatch (i.beat?.getD noBeat) = some i := by
  cases i
  case fbIllegal code b =>
    rcases fbIllegal_code h with rfl | rfl <;> exact rowInstr_fb ..
  all_goals
    simp only [Instr.unit, Instr.dispatch, rowInstr_ss, rowInstr_fb]
    rfl

/-- What an instruction's parts are when a unit's table gives it to a dispatch word and a beat. -/
def BuiltFrom (u : UnitId) (k : DispatchWord) (b : Beat) (i : Instr) : Prop :=
  i.wellFormed = true ∧ i.unit = u ∧ i.dispatch = k ∧ i.beat? = if dispatchHasBeat k then some b else none

/-- All that a unit's table can give. -/
theorem builtFrom_of_rowInstr {u : UnitId} {k : DispatchWord} {b : Beat} {i : Instr}
    (h : rowInstr u k b = some i) : BuiltFrom u k b i := by
  rw [← packDispatch_fields k] at h ⊢
  generalize dispatchRst k = rst, dispatchInValid k = inValid, dispatchSel k = sel, dispatchCode k = code at h ⊢
  cases u
  · rw [rowInstr_ss, Option.some_inj] at h
    subst h
    rcases stateCode_cases code with rfl | rfl | rfl | rfl | rfl | rfl | rfl | rfl <;>
      cases rst <;> cases inValid <;> cases sel <;> exact ⟨rfl, rfl, rfl, rfl⟩
  · rw [rowInstr_fb, Option.some_inj] at h
    subst h
    rcases stateCode_cases code with rfl | rfl | rfl | rfl | rfl | rfl | rfl | rfl <;>
      cases rst <;> cases inValid <;> cases sel <;> exact ⟨rfl, rfl, rfl, rfl⟩

/-- The encoding of an instruction that a unit's table gives to a dispatch word and a beat. -/
theorem BuiltFrom.encode_eq {u : UnitId} {k : DispatchWord} {b : Beat} {i : Instr} (h : BuiltFrom u k b i) :
    encode i = headerByte u k :: (if dispatchHasBeat k then beatBytes b else []) := by
  obtain ⟨-, rfl, rfl, hb⟩ := h
  rw [encode, hb]
  cases dispatchHasBeat i.dispatch <;> rfl

/-! ## The round trip -/

/-- Settles O1: the row of the instruction's dispatch word builds it back (`rowInstr_dispatch`). -/
theorem decodeEncodeRoundTrip : Obligations.DecodeEncodeRoundTrip := by
  unfold Obligations.DecodeEncodeRoundTrip
  intro i rest hwf
  rw [encode_eq, List.cons_append]
  refine decode_header rest (fun hk => ?_) (rowInstr_dispatch hwf)
  rw [dispatchHasBeat_dispatch] at hk
  rw [Option.isSome_eq_false_iff, Option.isNone_iff_eq_none] at hk
  rw [hk, Option.getD_none]

/-- All that the decoder can answer: the instruction that the header's row builds, and the bytes after it. -/
theorem decode_eq_ok {bs rest : List Byte} {i : Instr} (h : decode bs = .ok (i, rest)) :
    ∃ u k b, rowInstr u k b = some i ∧
      bs = headerByte u k :: ((if dispatchHasBeat k then beatBytes b else []) ++ rest) := by
  match bs with
  | [] => cases h
  | hd :: tl =>
    cases h7 : hd.getLsbD 7
    case true => simp [decode, h7] at h
    case false =>
    refine ⟨headerUnit hd, headerDispatch hd, ?_⟩
    rw [headerByte_fields h7]
    simp only [decode, h7, Bool.false_eq_true, if_false] at h
    split at h
    · cases h
    next row hrow =>
    split at h
    next hk =>
      split at h
      · cases h
      next b tl' htl =>
        cases h
        exact ⟨b, by simp [rowInstr, hrow], by rw [if_pos hk, takeBeat_eq_some htl]⟩
    next hk =>
      cases h
      exact ⟨noBeat, by simp [rowInstr, hrow], by rw [if_neg hk]; rfl⟩

/-- Settles O2: the decoder's answer is built by its header's row (`decode_eq_ok`), and such an instruction encodes to
that header and beat. -/
theorem decodedBytesAreTheEncoding : Obligations.DecodedBytesAreTheEncoding := by
  unfold Obligations.DecodedBytesAreTheEncoding
  intro bs i rest h
  obtain ⟨u, k, b, hrow, rfl⟩ := decode_eq_ok h
  have hbuilt := builtFrom_of_rowInstr hrow
  exact ⟨hbuilt.1, by rw [hbuilt.encode_eq, List.cons_append]⟩

/-- Settles O3: the seven words, decoded one by one. -/
theorem specWordsDecode : Obligations.SpecWordsDecode := by
  unfold Obligations.SpecWordsDecode
  refine ⟨?_, ?_, ?_, ?_, ?_, ?_, ?_⟩ <;> decide

/-! ## The operation of a clock edge -/

/-- Settles O6: nothing but the operation stands in the step when the fetch answers one. -/
theorem stepRunsTheDecodedInstruction : Obligations.StepRunsTheDecodedInstruction := by
  unfold Obligations.StepRunsTheDecodedInstruction
  intro s i rest husable hdecode
  simp [step, State.fetch, husable, hdecode]

/-- Settles O9: the fetch answers the refusal before it looks at the bytes. -/
theorem illegalRunLengthIsRefused : Obligations.IllegalRunLengthIsRefused := by
  unfold Obligations.IllegalRunLengthIsRefused
  intro s b hlen hd
  have hunusable : runLenUnusable s = true := by
    unfold nextBeatIs at hd
    simp [runLenUnusable, hd, Config.runLenLegal, hlen]
  simp [step, State.fetch, hunusable]

/-- The table of the driven unit gives the edge's dispatch word the operation that the edge selects. -/
theorem selects_builtFrom (s : State) :
    BuiltFrom (nextDrive s).unit (dispatchWord s (nextDrive s)) (nextDrive s).beat (selects s (nextDrive s)) := by
  unfold selects dispatchWord
  rcases nextDrive s with ⟨u, rst, inValid, b⟩
  cases u
  · refine builtFrom_of_rowInstr ?_
    rw [ssDispatchWord, rowInstr_ss]
    rfl
  · refine builtFrom_of_rowInstr ?_
    rw [fbDispatchWord, rowInstr_fb]
    rfl

/-- A dispatch word formed from the pins asks for a beat when `in_valid` is 1 and `rst` is 0. -/
theorem dispatchHasBeat_dispatchWord (s : State) (d : Drive) :
    dispatchHasBeat (dispatchWord s d) = (!d.rst && d.inValid) := by
  unfold dispatchWord
  cases d.unit <;> simp [dispatchHasBeat, ssDispatchWord, fbDispatchWord]

/-- Settles O7: the selected operation is built from the driven unit, the dispatch word and the beat
(`selects_builtFrom`). -/
theorem everyEdgePerformsItsDispatchWord : Obligations.EveryEdgePerformsItsDispatchWord := by
  unfold Obligations.EveryEdgePerformsItsDispatchWord
  intro s husable
  obtain ⟨hwf, hunit, hdispatch, hbeat⟩ := selects_builtFrom s
  refine ⟨selects s (nextDrive s), hwf, hunit, hdispatch, ?_, ?_, step_eq_selects husable⟩
  · rw [hbeat, dispatchHasBeat_dispatchWord]
    exact if_congr (by simp) rfl rfl
  · rw [(selects_builtFrom s).encode_eq]
    rfl

/-! ## The rows of the two tables -/

/-- Every well-formed instruction's dispatch word lies in the row that bears its mnemonic. -/
theorem findRow_mnemonic {i : Instr} (h : i.wellFormed = true) :
    (findRow i.unit i.dispatch).map OpcodeRow.mnemonic = some i.mnemonic := by
  cases i
  case ssReset => exact Laws.RowMatch.ssReset _ _ _ h
  case ssNop => exact Laws.RowMatch.ssNop _ _ h
  case ssSync => exact Laws.RowMatch.ssSync _ _ h
  case ssIdle => exact Laws.RowMatch.ssIdle _ h
  case ssAddrLo => exact Laws.RowMatch.ssAddrLo _ h
  case ssAddrHi => exact Laws.RowMatch.ssAddrHi _ h
  case ssCntLo => exact Laws.RowMatch.ssCntLo _ h
  case ssCntHi => exact Laws.RowMatch.ssCntHi _ h
  case ssDataLo => exact Laws.RowMatch.ssDataLo _ h
  case ssDataHi => exact Laws.RowMatch.ssDataHi _ h
  case ssIllegal => exact Laws.RowMatch.ssIllegal _ h
  case fbReset => exact Laws.RowMatch.fbReset _ _ _ h
  case fbNop => exact Laws.RowMatch.fbNop _ _ h
  case fbGapAddr => exact Laws.RowMatch.fbGapAddr _ _ h
  case fbAddr => exact Laws.RowMatch.fbAddr _ h
  case fbMsgType => exact Laws.RowMatch.fbMsgType _ h
  case fbDataLen => exact Laws.RowMatch.fbDataLen _ h
  case fbPayload => exact Laws.RowMatch.fbPayload _ h
  case fbWaitData => exact Laws.RowMatch.fbWaitData _ h
  case fbChecksum => exact Laws.RowMatch.fbChecksum _ h
  case fbIllegal => exact Laws.RowMatch.fbIllegal _ _ h

/-- An edge that is not refused runs an operation of a row of its unit's table that its dispatch word lies in. -/
theorem edge_runs_its_row {s : State} (husable : runLenUnusable s = false) :
    ∃ r ∈ opcodeRows (nextDrive s).unit, r.accepts (dispatchWord s (nextDrive s)) = true ∧
      ∃ i : Instr, i.mnemonic = r.mnemonic ∧ i.dispatch = dispatchWord s (nextDrive s) ∧
        step s = exec i s.consume := by
  obtain ⟨hwf, hunit, hdispatch, -⟩ := selects_builtFrom s
  obtain ⟨r, hrow, hmnemonic⟩ := Option.map_eq_some_iff.mp (findRow_mnemonic hwf)
  rw [hunit, hdispatch] at hrow
  have haccepts := List.find?_some (p := fun r : OpcodeRow => r.accepts (dispatchWord s (nextDrive s))) hrow
  exact ⟨r, List.mem_of_find?_eq_some hrow, haccepts, _, hmnemonic.symm, hdispatch,
    step_eq_selects husable⟩

/-- Settles O4: the fields by taking the packed word apart, the cover by going through the 64 words, the operation by
`edge_runs_its_row`. -/
theorem ssDispatchWordAndRows : Obligations.SsDispatchWordAndRows := by
  unfold Obligations.SsDispatchWordAndRows
  refine ⟨fun s d hu => ?_, rfl, by decide, fun s hu husable => ?_⟩
  · have hword : dispatchWord s d = packDispatch d.rst d.inValid (ssHit s.cfg s.ss.regs d.beat) s.ss.regs.state := by
      simp only [dispatchWord, hu, ssDispatchWord]
    rw [hword]
    exact ⟨dispatchRst_pack .., dispatchInValid_pack ..,
      (iff_of_eq (congrArg (· = true) (dispatchSel_pack ..))).trans (ssHit_iff ..), dispatchCode_pack ..⟩
  · simpa only [hu, opcodeRows] using edge_runs_its_row husable

/-- Settles O5: as for unit SS, with `g` in the place of `hit`. -/
theorem fbDispatchWordAndRows : Obligations.FbDispatchWordAndRows := by
  unfold Obligations.FbDispatchWordAndRows
  refine ⟨fun s d hu => ?_, rfl, by decide, fun s hu husable => ?_⟩
  · have hword : dispatchWord s d = packDispatch d.rst d.inValid (fbG s.cfg s.fb.regs d.beat) s.fb.regs.state := by
      simp only [dispatchWord, hu, fbDispatchWord]
    rw [hword]
    exact ⟨dispatchRst_pack .., dispatchInValid_pack ..,
      (iff_of_eq (congrArg (· = true) (dispatchSel_pack ..))).trans (fbG_iff ..), dispatchCode_pack ..⟩
  · simpa only [hu, opcodeRows] using edge_runs_its_row husable

/-! ## Placing an operation (log 5) -/

/-- No byte is its own complement. -/
theorem ne_complement (b : Byte) : b ≠ ~~~b := by
  revert b; decide

/-- Presenting an operation of unit SS makes bit 3 come out as its own. -/
theorem ssHit_presenting {s : State} {i : Instr} (hl : s.cfg.runLenLegal = true) (hu : i.unit = .ss) :
    ssHit (s.presenting i).cfg (s.presenting i).ss.regs (i.beat?.getD noBeat) = dispatchSel i.dispatch := by
  cases hsel : dispatchSel i.dispatch
  · simp only [State.presenting, hu, hsel, Bool.false_eq_true, if_false]
    rw [Bool.eq_false_iff, ne_eq, ssHit_iff]
    rintro ⟨hbyte, -⟩
    split at hbyte
    next heq => exact ne_complement _ hbyte
    next hne => exact hne hbyte.symm
  · simp only [State.presenting, hu, hsel, if_true]
    refine (ssHit_iff ..).mpr ⟨rfl, ?_⟩
    have hpos : s.cfg.syncRunLen.toNat ≠ 0 := by
      simpa [Config.runLenLegal, BitVec.toNat_eq] using hl
    have hfit := syncRunLen_le_pow_runWidth s.cfg
    refine (congrArg (· + 1) (ssRun_write s.cfg s.ss.regs (s.cfg.syncRunLen.toNat - 1))).trans ?_
    rw [Nat.mod_eq_of_lt (by omega)]
    exact Nat.sub_add_cancel (Nat.pos_of_ne_zero hpos)

/-- Presenting an operation of unit FB makes bit 3 come out as its own. -/
theorem fbG_presenting {s : State} {i : Instr} (hu : i.unit = .fb) :
    fbG (s.presenting i).cfg (s.presenting i).fb.regs (i.beat?.getD noBeat) = dispatchSel i.dispatch := by
  cases hsel : dispatchSel i.dispatch
  · simp [State.presenting, hu, hsel, fbG]
  · simp [State.presenting, hu, hsel, fbG, BitVec.le_def]

/-- The clock edge of a presented operation. -/
theorem nextDrive_presenting (s : State) (i : Instr) :
    nextDrive (s.presenting i) =
      ⟨i.unit, dispatchRst i.dispatch, dispatchInValid i.dispatch, i.beat?.getD noBeat⟩ := by
  simp only [State.presenting]
  cases i.unit <;> cases dispatchSel i.dispatch <;> rfl

/-- Presenting leaves the run length as it is. -/
theorem runLenLegal_presenting (s : State) (i : Instr) :
    (s.presenting i).cfg.runLenLegal = s.cfg.runLenLegal := by
  simp only [State.presenting]
  cases i.unit <;> cases dispatchSel i.dispatch <;> rfl

/-- Presenting an operation puts its state code into its unit's state register. -/
theorem state_presenting (s : State) (i : Instr) :
    (i.unit = .ss → (s.presenting i).ss.regs.state = dispatchCode i.dispatch) ∧
      (i.unit = .fb → (s.presenting i).fb.regs.state = dispatchCode i.dispatch) := by
  simp only [State.presenting]
  constructor <;> intro hu <;> rw [hu] <;> cases dispatchSel i.dispatch <;> rfl

/-- The dispatch word of a presented operation is its own. -/
theorem dispatchWord_presenting {s : State} (i : Instr) (hl : s.cfg.runLenLegal = true) :
    dispatchWord (s.presenting i) (nextDrive (s.presenting i)) = i.dispatch := by
  obtain ⟨hss, hfb⟩ := state_presenting s i
  rw [nextDrive_presenting]
  cases hu : i.unit
  · rw [dispatchWord, ssDispatchWord, ssHit_presenting hl hu, hss hu, packDispatch_fields]
  · rw [dispatchWord, fbDispatchWord, fbG_presenting hu, hfb hu, packDispatch_fields]

/-- A presented operation is what the next edge fetches. -/
theorem fetchBytes_presenting {s : State} (i : Instr) (hl : s.cfg.runLenLegal = true) :
    fetchBytes (s.presenting i) = encode i := by
  rw [fetchBytes, dispatchWord_presenting i hl, nextDrive_presenting, encode_eq]

/-- Settles O8: what is fetched is the placed instruction's encoding (`fetchBytes_presenting`), which decodes to it. -/
theorem placedWordIsWhatTheStepRuns : Obligations.PlacedWordIsWhatTheStepRuns := by
  unfold Obligations.PlacedWordIsWhatTheStepRuns
  intro s nbits w i hl hword
  have hplaced : s.withFetchWord nbits w = s.presenting i := by rw [State.withFetchWord, hword]
  have hwf : i.wellFormed = true := by
    unfold decodeTableWord at hword
    split at hword
    next hdecode =>
      cases hword
      exact (decodedBytesAreTheEncoding _ _ _ hdecode).1
    next => cases hword
  rw [hplaced]
  refine stepRunsTheDecodedInstruction _ i [] (runLenUnusable_of_legal ?_) ?_
  · rw [runLenLegal_presenting, hl]
  · simpa [fetchBytes_presenting i hl] using decodeEncodeRoundTrip i [] hwf

end Sys2Proof.Machine
end

section
/-! # The operations, one by one (spec/40_sync_stream_ops.md section 2, spec/41_framed_bus_ops.md section 2)

Each operation ends its edge by `State.finishSs` or `State.finishFb`; what the end of an edge says is stated once, and
each statement then compares the registers that its rule names with those that the operation writes. -/

namespace Sys2Proof.Machine

/-! ## Unit SS -/

/-- What the end of a clock edge of unit SS puts out. -/
theorem ssPuts_finishSs (s : State) (r : SsRegs) (ev : Option Event) (dg : Option Diag) :
    SsPuts s (s.finishSs r ev dg) ev dg := by
  simp [SsPuts]

/-- The end of a clock edge of unit SS moves unit SS alone. -/
theorem ssLocal_finishSs (s : State) (r : SsRegs) (ev : Option Event) (dg : Option Diag) :
    SsLocal s (s.finishSs r ev dg) := ⟨rfl, rfl, rfl⟩

/-- A beat of unit SS is done when its registers are `r` but for the two that the matcher writes. -/
theorem ssBeatDone_finishSs {s : State} {b : Beat} {r r' : SsRegs} (ev : Option Event) (dg : Option Diag)
    (h : r' = { r with
      run := (syncMatcher s.cfg b s.ss.regs).run, syncStart := (syncMatcher s.cfg b s.ss.regs).syncStart }) :
    SsBeatDone s (s.finishSs r' ev dg) b r ev dg := by
  subst h
  exact ⟨ssLocal_finishSs .., syncMatcher_rule rfl rfl, rfl, ssPuts_finishSs ..⟩

/-- The decremented countdown, modulo `2^16`. -/
theorem decCount_eq_ofNat (r : SsRegs) : decCount r = BitVec.ofNat 16 (r.count.toNat + 65535) := by
  apply BitVec.eq_of_toNat_eq
  rw [decCount_toNat, BitVec.toNat_ofNat]

/-- The sticky flag after a decrement, with the borrow as a test on a number. -/
theorem decCountNeg_eq (r : SsRegs) : decCountNeg r = (r.countNeg || decide (r.count.toNat = 0)) := by
  rw [decCountNeg, Bool.beq_eq_decide_eq]
  simp only [BitVec.toNat_eq, BitVec.toNat_zero]

/-- The diagnostic of a decrement, with the borrow as a test on a number. -/
theorem decDiag_eq_of_toNat (r : SsRegs) :
    decDiag r = if r.count.toNat = 0 ∧ r.countNeg = false then some .countUnderrun else none := by
  rw [decDiag_eq]
  exact if_congr (by rw [BitVec.toNat_eq, BitVec.toNat_zero]) rfl rfl

/-- Settles O10: `SS.RESET` ends its edge with the registers at their reset values. -/
theorem ssResetPutsEveryRegisterAtReset : Obligations.SsResetPutsEveryRegisterAtReset :=
  fun _ _ _ _ => ⟨_, rfl, ssLocal_finishSs .., rfl, ssPuts_finishSs ..⟩

/-- Settles O11: `SS.NOP` ends its edge with the registers it found. -/
theorem ssNopWritesNoRegister : Obligations.SsNopWritesNoRegister :=
  fun _ _ _ => ⟨_, rfl, ssLocal_finishSs .., rfl, ssPuts_finishSs ..⟩

/-- Settles O12: `SS.SYNC` ends its edge with the accumulators cleared and the run's start in `ss.sync_start`. -/
theorem ssSyncStartsAnEpoch : Obligations.SsSyncStartsAnEpoch :=
  fun _ _ _ => ⟨_, rfl, ssLocal_finishSs .., rfl, ssPuts_finishSs ..⟩

/-- Settles O13: `SS.IDLE` leaves what the matcher leaves. -/
theorem ssIdleRunsTheMatcherOnly : Obligations.SsIdleRunsTheMatcherOnly :=
  fun _ _ => ⟨rfl, _, rfl, ssBeatDone_finishSs _ _ (syncMatcher_frame ..)⟩

/-- Settles O14: beside the matcher's registers, the zero-extended byte and the field's start. -/
theorem ssAddrLoTakesTheLowByte : Obligations.SsAddrLoTakesTheLowByte :=
  fun b _ => ⟨_, rfl, ssBeatDone_finishSs _ _ (by simp [zext16_eq_ofNat b.byte])⟩

/-- Settles O15: the two branches of the escape test. -/
theorem ssAddrHiCombinesOrEscapes : Obligations.SsAddrHiCombinesOrEscapes := by
  unfold Obligations.SsAddrHiCombinesOrEscapes
  intro b s
  have hword := withHighByte_eq_wordOf s.ss.regs.address b.byte
  refine ⟨_, rfl, fun hesc => ?_, fun hesc => ?_⟩
  · have hflag : ssEsc s.cfg s.ss.regs b = true := (ssEsc_iff ..).mpr hesc
    rw [hesc] at hword
    simp only [hflag, hword, if_true]
    exact ssBeatDone_finishSs _ _ (by simp)
  · have hflag : ssEsc s.cfg s.ss.regs b = false := by
      rw [Bool.eq_false_iff, ne_eq, ssEsc_iff]; exact hesc
    simp only [hflag, hword, Bool.false_eq_true, if_false]
    exact ssBeatDone_finishSs _ _ (by simp)

/-- Settles O16: beside the matcher's registers, the zero-extended byte, the cleared flag and the field's start. -/
theorem ssCntLoTakesTheLowByte : Obligations.SsCntLoTakesTheLowByte :=
  fun b _ => ⟨_, rfl, ssBeatDone_finishSs _ _ (by simp [zext16_eq_ofNat b.byte])⟩

/-- Settles O17: the assembled count in the register and in the event. -/
theorem ssCntHiCombinesTheCount : Obligations.SsCntHiCombinesTheCount := by
  unfold Obligations.SsCntHiCombinesTheCount
  intro b s
  rw [← withHighByte_eq_wordOf]
  exact ⟨_, rfl, ssBeatDone_finishSs _ _ (by simp)⟩

/-- Settles O18: the zero-extended byte and the decremented countdown. -/
theorem ssDataLoTakesTheLowByte : Obligations.SsDataLoTakesTheLowByte := by
  unfold Obligations.SsDataLoTakesTheLowByte
  intro b s
  rw [← zext16_eq_ofNat, ← decCount_eq_ofNat, ← decCountNeg_eq, ← decDiag_eq_of_toNat]
  exact ⟨_, rfl, ssBeatDone_finishSs _ _ (by simp)⟩

/-- The address after a data word. -/
theorem address_add_two (a : Half) : BitVec.ofNat 16 (a.toNat + 2) = a + 2#16 := by
  rw [BitVec.ofNat_add, BitVec.ofNat_toNat, BitVec.setWidth_eq]

/-- Settles O19: the assembled value, the address before its increment in the event, and the end-of-record test as a
test on the countdown before the decrement. -/
theorem ssDataHiEmitsTheWriteRecord : Obligations.SsDataHiEmitsTheWriteRecord := by
  unfold Obligations.SsDataHiEmitsTheWriteRecord
  intro b s
  rw [← withHighByte_eq_wordOf, address_add_two, ← decCount_eq_ofNat, ← decCountNeg_eq, ← decDiag_eq_of_toNat]
  simp only [← ssRecordEnds_dec]
  exact ⟨_, rfl, ssBeatDone_finishSs _ _ (by simp)⟩

/-- Settles O20: the three operations have no other outcome. -/
theorem unusedStateCodesFault : Obligations.UnusedStateCodesFault :=
  fun _ _ _ => ⟨rfl, rfl, rfl⟩

/-! ## Unit FB -/

/-- Settles O21: `FB.RESET` ends its edge with the registers at their reset values and `PL` as it was. -/
theorem fbResetPutsEveryRegisterAtReset : Obligations.FbResetPutsEveryRegisterAtReset :=
  fun _ _ _ _ => ⟨_, rfl, fbEdgeDone_finishFb .., rfl⟩

/-- Settles O22: `FB.NOP` ends its edge with the registers it found. -/
theorem fbNopWritesNoRegister : Obligations.FbNopWritesNoRegister :=
  fun _ _ _ => ⟨_, rfl, fbEdgeDone_finishFb .., rfl⟩

/-- Settles O23: the frame reset, the address and the offset update together; the gap event in numbers. -/
theorem fbGapAddrResetsThenTakesTheAddress : Obligations.FbGapAddrResetsThenTakesTheAddress := by
  unfold Obligations.FbGapAddrResetsThenTakesTheAddress
  intro code b s
  rw [← gapEvent_eq]
  refine ⟨?_, _, rfl, fbEdgeDone_finishFb .., rfl⟩
  show packDispatch false true true code &&& 0x38#6 = 0x18#6
  revert code; decide

/-- Settles O26: a zero length is a zero byte. -/
theorem fbDataLenTakesTheLength : Obligations.FbDataLenTakesTheLength := by
  unfold Obligations.FbDataLenTakesTheLength
  intro b s
  have hzero : b.byte.toNat = 0 ↔ b.byte = 0#8 := by rw [BitVec.toNat_eq, BitVec.toNat_zero]
  simp only [hzero]
  exact ⟨_, rfl, fbEdgeDone_finishFb .., rfl⟩

/-- The room for a payload byte, in numbers. -/
theorem fbRoom_iff (r : FbRegs) : fbRoom r = true ↔ r.plCount.toNat < r.dataLength.toNat := by
  simp [fbRoom, BitVec.lt_def]

/-- The count after a payload byte for which there is room. -/
theorem fbPlCountAfter_of_room {r : FbRegs} (h : fbRoom r = true) : fbPlCountAfter r = r.plCount + 1#8 := if_pos h

/-- The count after a payload byte for which there is none. -/
theorem fbPlCountAfter_of_full {r : FbRegs} (h : fbRoom r = false) : fbPlCountAfter r = r.plCount := by
  simp [fbPlCountAfter, h]

/-- Without room the payload is complete when the count equals the length. -/
theorem fbDone_of_full {r : FbRegs} (h : fbRoom r = false) : fbDone r = (r.plCount == r.dataLength) := by
  rw [fbDone, fbPlCountAfter_of_full h]

/-- With room, the completing byte is the one that brings the count to the length. -/
theorem fbDone_of_room {r : FbRegs} (h : fbRoom r = true) :
    fbDone r = decide (r.plCount.toNat + 1 = r.dataLength.toNat) := by
  rw [Bool.eq_iff_iff, decide_eq_true_iff]
  exact fbDone_iff_of_lt (BitVec.lt_def.mpr ((fbRoom_iff r).mp h))

/-- Settles O27: the three cases by the room for the byte and by whether the count equals the length. -/
theorem fbPayloadAppendsTheByte : Obligations.FbPayloadAppendsTheByte := by
  unfold Obligations.FbPayloadAppendsTheByte
  intro b s
  have hzero : s.fb.regs.plCount.toNat = 0 ↔ s.fb.regs.plCount = 0#8 := by rw [BitVec.toNat_eq, BitVec.toNat_zero]
  refine ⟨_, rfl, fun hlt => ?_, fun heq => ?_, fun hgt => ?_⟩
  · have hroom : fbRoom s.fb.regs = true := (fbRoom_iff _).mpr hlt
    have hcount : BitVec.ofNat 8 (s.fb.regs.plCount.toNat + 1) = s.fb.regs.plCount + 1#8 := by
      rw [BitVec.ofNat_add, BitVec.ofNat_toNat, BitVec.setWidth_eq]
    simp only [fbDone_of_room hroom, fbPlCountAfter_of_room hroom, hroom, if_true, hzero, hcount,
      decide_eq_true_eq]
    exact ⟨fbEdgeDone_finishFb .., by simp [Memory.read_write], fun a ha => by simp [Memory.read_write, ha]⟩
  · have hroom : fbRoom s.fb.regs = false := by
      rw [Bool.eq_false_iff, ne_eq, fbRoom_iff]; omega
    have hdone : fbDone s.fb.regs = true := by
      rw [fbDone_of_full hroom, beq_iff_eq, BitVec.toNat_eq, heq]
    simp only [hdone, fbPlCountAfter_of_full hroom, hroom, if_true, Bool.false_eq_true, if_false, hzero]
    exact ⟨fbEdgeDone_finishFb .., rfl⟩
  · have hroom : fbRoom s.fb.regs = false := by
      rw [Bool.eq_false_iff, ne_eq, fbRoom_iff]; omega
    have hdone : fbDone s.fb.regs = false := by
      rw [fbDone_of_full hroom, beq_eq_false_iff_ne, ne_eq, BitVec.toNat_eq]; omega
    simp only [hdone, fbPlCountAfter_of_full hroom, hroom, Bool.false_eq_true, if_false]
    exact ⟨fbEdgeDone_finishFb .., rfl⟩

/-- Settles O28: the two cases of the broadcast test. -/
theorem fbChecksumEmitsTheFrame : Obligations.FbChecksumEmitsTheFrame := by
  unfold Obligations.FbChecksumEmitsTheFrame
  intro b s
  have hzero : s.fb.regs.address.toNat = 0 ↔ fbBcast s.fb.regs = true := by
    rw [fbBcast_iff, BitVec.toNat_eq, BitVec.toNat_zero]
  simp only [hzero]
  refine ⟨_, rfl, ?_, rfl⟩
  cases fbBcast s.fb.regs <;> exact fbEdgeDone_finishFb ..

/-! ## The payload buffer -/

/-- Every operation of unit FB but `FB.PAYLOAD` hands `PL` on as it found it. -/
theorem exec_fb_pl {i : Instr} {s t : State} (hu : i.unit = .fb) (h : exec i s = .next t)
    (hne : ∀ b, i ≠ .fbPayload b) : t.fb.pl = s.fb.pl := by
  cases i <;> cases hu
  case fbPayload b => exact absurd rfl (hne b)
  case fbWaitData => cases h
  case fbIllegal => cases h
  all_goals cases h; rfl

/-- Settles O34: no operation of unit SS moves unit FB, and the read port shows `PL` alone. -/
theorem onlyPayloadBeatsWriteTheBuffer : Obligations.OnlyPayloadBeatsWriteTheBuffer := by
  unfold Obligations.OnlyPayloadBeatsWriteTheBuffer
  intro i s t h hne
  have hpl : t.fb.pl = s.fb.pl := by
    cases hu : i.unit with
    | ss => rw [(exec_ss_local hu h).2.1]
    | fb => exact exec_fb_pl hu h hne
  exact ⟨hpl, fun raddr => by rw [FbUnit.plRdata, FbUnit.plRdata, hpl]⟩

/-- Settles O35: the event's payload is the first `data_length` entries of the buffer that the read port then shows. -/
theorem framePayloadIsAtTheReadPort : Obligations.FramePayloadIsAtTheReadPort := by
  unfold Obligations.FramePayloadIsAtTheReadPort
  intro b s t h
  cases h
  exact ⟨_, rfl, Memory.readFirst_length .., fun raddr hlt =>
    Memory.readFirst_get? _ (BitVec.lt_def.mp hlt)⟩

/-! ## Configuration and reset -/

/-- Settles O38: the operation of the step writes neither (`exec_cfg_input`), and the step takes one edge off. -/
theorem stepKeepsTheConfiguration : Obligations.StepKeepsTheConfiguration :=
  fun _ _ h => exec_cfg_input (exec_of_step h)

/-- Settles O39: the table of spec/10_state.md R59 and the defaults of R54, field by field. -/
theorem resetStateValues : Obligations.ResetStateValues :=
  ⟨rfl, rfl, rfl, rfl, rfl, rfl, rfl, rfl⟩

/-- Settles O40: both units stand in their first state with every counter at zero, and no entry of `PL` is listed. -/
theorem resetMeetsTheInvariants : Obligations.ResetMeetsTheInvariants := by
  unfold Obligations.ResetMeetsTheInvariants
  decide

end Sys2Proof.Machine
end

section
/-! # Events and diagnostics of an edge (spec/40_sync_stream_ops.md R123, spec/41_framed_bus_ops.md R151,
spec/60_exceptions.md R172 to R174) -/

namespace Sys2Proof.Machine

/-! ## Events -/

/-- The operations of unit SS that emit no event. -/
theorem exec_ss_evPort_eq_none_iff {i : Instr} {s t : State} (hu : i.unit = .ss) (h : exec i s = .next t) :
    t.ss.evPort = none ↔
      i.mnemonic ∈ ["SS.RESET", "SS.NOP", "SS.IDLE", "SS.ADDR_LO", "SS.CNT_LO", "SS.DATA_LO"] := by
  cases i <;> cases hu
  case ssIllegal => cases h
  all_goals cases h; simp [Instr.mnemonic]

/-- A gap event comes from `FB.GAP_ADDR` alone, which then emits the address event too. -/
theorem exec_fb_gapPort {i : Instr} {s t : State} (hu : i.unit = .fb) (h : exec i s = .next t)
    (hgap : t.fb.gapPort ≠ none) : i.mnemonic = "FB.GAP_ADDR" ∧ portKind t.fb.evPort = 9#4 := by
  cases i <;> cases hu
  case fbGapAddr => cases h; exact ⟨rfl, rfl⟩
  case fbWaitData => cases h
  case fbIllegal => cases h
  all_goals cases h; exact absurd rfl hgap

/-- The operations of unit FB that can emit no event: `FB.PAYLOAD` before the payload is complete. -/
theorem exec_fb_evPort_eq_none {i : Instr} {s t : State} (hu : i.unit = .fb) (h : exec i s = .next t)
    (hnone : t.fb.evPort = none) : i.mnemonic ∈ ["FB.RESET", "FB.NOP", "FB.PAYLOAD"] := by
  cases i <;> cases hu
  case fbReset => simp [Instr.mnemonic]
  case fbNop => simp [Instr.mnemonic]
  case fbPayload => simp [Instr.mnemonic]
  case fbWaitData => cases h
  case fbIllegal => cases h
  all_goals cases h; cases hnone

/-- Settles O31: the records grow by what the end of an edge shows at the ports; the rest is by operation. -/
theorem eventsOfAnEdge : Obligations.EventsOfAnEdge := by
  unfold Obligations.EventsOfAnEdge
  refine fun i s t h => ⟨fun hu => ?_, fun hu => ?_⟩
  · have hnone := exec_ss_evPort_eq_none_iff hu h
    obtain ⟨r, ev, dg, rfl⟩ := exec_ss_next hu h
    exact ⟨appendItem_eq .., appendItem_eq .., hnone⟩
  · have hgap := exec_fb_gapPort hu h
    have hnone := exec_fb_evPort_eq_none hu h
    obtain ⟨r, pl, gap, ev, dg, rfl⟩ := exec_fb_next hu h
    exact ⟨by simp, appendItem_eq .., hgap, hnone⟩

/-! ## Diagnostics -/

/-- The diagnostic of a decrement is the underrun, and comes with the first borrow out of zero. -/
theorem decDiag_eq_some_iff (r : SsRegs) (d : Diag) :
    decDiag r = some d ↔ d = .countUnderrun ∧ r.count = 0#16 ∧ r.countNeg = false := by
  rw [decDiag_eq]
  by_cases h : r.count = 0#16 ∧ r.countNeg = false
  · simp [h, eq_comm]
  · rw [if_neg h]
    exact ⟨fun hd => (nomatch hd), fun hd => absurd hd.2 h⟩

/-- What can stand at unit SS's diagnostic port after an operation. -/
theorem exec_ss_dgPort {i : Instr} {s t : State} (hu : i.unit = .ss) (h : exec i s = .next t) :
    (t.ss.dgPort = some .escape ↔
      ∃ b, i = .ssAddrHi b ∧ wordOf s.ss.regs.address.toNat b.byte = s.cfg.escAddr) ∧
    (t.ss.dgPort = some .countUnderrun ↔
      (∃ b, i = .ssDataLo b ∨ i = .ssDataHi b) ∧ s.ss.regs.count = 0#16 ∧ s.ss.regs.countNeg = false) ∧
    t.ss.dgPort ≠ some .gapReset := by
  cases i <;> cases hu
  case ssIllegal => cases h
  case ssAddrHi b =>
    cases h
    simp [← ssEsc_iff]
  case ssDataLo b =>
    cases h
    simp [decDiag_eq_some_iff]
  case ssDataHi b =>
    cases h
    simp [decDiag_eq_some_iff]
  all_goals cases h; simp

/-- What can stand at unit FB's diagnostic port after an operation. -/
theorem exec_fb_dgPort {i : Instr} {s t : State} (hu : i.unit = .fb) (h : exec i s = .next t) :
    (t.fb.dgPort = some .gapReset ↔ ∃ code b, i = .fbGapAddr code b) ∧
      (t.fb.dgPort ≠ some .gapReset → t.fb.dgPort = none) := by
  cases i <;> cases hu
  case fbWaitData => cases h
  case fbIllegal => cases h
  all_goals cases h; simp

/-- Settles O32: unit by unit, `exec_ss_dgPort` and `exec_fb_dgPort`. -/
theorem diagnosticCauses : Obligations.DiagnosticCauses :=
  fun _ _ _ h => ⟨fun hu => exec_ss_dgPort hu h, fun hu => exec_fb_dgPort hu h⟩

end Sys2Proof.Machine
end

section
/-! # The pins (spec/30_encoding.md R86, R92, R93, spec/60_exceptions.md R171, spec/10_state.md R55)

What a unit shows is taken apart into its side pins and the pins of each port; which events an operation can leave at a
port then says which rows of R86's kinds apply. -/

namespace Sys2Proof.Machine

/-- The diagnostic pins are a function of the port. -/
theorem diagPins_iff (dg : Option Diag) (valid : Bool) (code : BitVec 2) :
    DiagPins dg valid code ↔ valid = dg.isSome ∧ code = diagPin dg := by
  match dg with
  | none => simp [DiagPins, diagPin]
  | some .escape => simp [DiagPins, diagPin, Diag.code]
  | some .gapReset => simp [DiagPins, diagPin, Diag.code]
  | some .countUnderrun => simp [DiagPins, diagPin, Diag.code]

/-! ## Unit SS -/

/-- The kinds that unit SS emits. -/
def Event.ofSs : Event → Bool
  | .ssSync _ _ => true
  | .ssAddr _ _ _ _ => true
  | .ssCount _ _ _ => true
  | .ssWrite _ _ _ _ => true
  | _ => false

/-- What unit SS shows while an event is at the port. -/
theorem ssShows_of_some {u : SsUnit} {e : Event} (h : u.evPort = some e) (p : SsPins) :
    u.shows p = true ↔
      SsSidePins u p ∧ SsEventPins p e.kindCode e.spanStart e.spanEnd e.addrPin e.dataPin e.escPin := by
  simp only [SsUnit.shows, h, SsSidePins, diagPins_iff, SsEventPins, Bool.and_eq_true, beq_iff_eq, Option.isSome_some]
  tauto

/-- What unit SS shows while no event is at the port. -/
theorem ssShows_of_none {u : SsUnit} (h : u.evPort = none) (p : SsPins) :
    u.shows p = true ↔ SsSidePins u p ∧ p.evValid = false ∧ p.evKind = 0#4 := by
  simp only [SsUnit.shows, h, SsSidePins, diagPins_iff, Bool.and_eq_true, beq_iff_eq, Option.isSome_none]
  tauto

/-- The one setting of the pins that shows an event. -/
def SsUnit.pinsFor (u : SsUnit) (e : Event) : SsPins :=
  ⟨true, e.kindCode, e.spanStart, e.spanEnd, e.addrPin, e.dataPin, e.escPin, u.dgPort.isSome, diagPin u.dgPort,
    u.regs.state, u.regs.countNeg⟩

/-- While an event is at the port every pin is fixed. -/
theorem ssShows_iff_pinsFor {u : SsUnit} {e : Event} (h : u.evPort = some e) (p : SsPins) :
    u.shows p = true ↔ p = u.pinsFor e := by
  rw [ssShows_of_some h, SsSidePins, diagPins_iff, SsEventPins, SsUnit.pinsFor]
  constructor
  · rintro ⟨⟨hstate, hneg, hvalid, hcode⟩, hev, hkind, hss, hes, haddr, hdata, hesc⟩
    cases p
    simp_all
  · rintro rfl
    simp

/-- The rows of R92 for the kinds that unit SS emits. -/
theorem ssPortPins_some {e : Event} (h : e.ofSs = true) (p : SsPins) :
    SsPortPins (some e) p ↔ SsEventPins p e.kindCode e.spanStart e.spanEnd e.addrPin e.dataPin e.escPin := by
  cases e <;> cases h <;>
    grind [SsPortPins, Event.kindCode, Event.spanStart, Event.spanEnd, Event.addrPin, Event.dataPin, Event.escPin]

theorem ssPortPins_none (p : SsPins) : SsPortPins none p ↔ p.evValid = false ∧ p.evKind = 0#4 := by
  simp [SsPortPins]

/-- An operation of unit SS leaves one of unit SS's kinds at the port, or nothing. -/
theorem exec_ss_evPort_ofSs {i : Instr} {s t : State} {e : Event} (hu : i.unit = .ss) (h : exec i s = .next t)
    (he : t.ss.evPort = some e) : e.ofSs = true := by
  cases i <;> cases hu
  case ssSync => cases h; cases he; rfl
  case ssAddrHi => cases h; cases he; rfl
  case ssCntHi => cases h; cases he; rfl
  case ssDataHi => cases h; cases he; rfl
  case ssIllegal => cases h
  all_goals cases h; cases he

/-- Settles O36: the pins taken apart with an event at the port and with none, and the kinds that an operation of unit
SS can leave there. -/
theorem ssPinsShowTheEvent : Obligations.SsPinsShowTheEvent := by
  unfold Obligations.SsPinsShowTheEvent
  refine ⟨fun u e he => ?_, fun u p hnone => ssShows_of_none hnone p, fun i s t hu h p => ?_⟩
  · exact ⟨u.pinsFor e, (ssShows_iff_pinsFor he _).mpr rfl, fun p => (ssShows_iff_pinsFor he p).mp⟩
  · cases hport : t.ss.evPort with
    | none => rw [ssShows_of_none hport, ssPortPins_none]
    | some e => rw [ssShows_of_some hport, ssPortPins_some (exec_ss_evPort_ofSs hu h hport)]

/-! ## Unit FB -/

/-- What an operation of unit FB can leave at the gap port. -/
inductive IsGapPort : Option Event → Prop
  | none : IsGapPort none
  | gap (ss es d : Offset) : IsGapPort (some (.fbGap ss es d))

/-- What an operation of unit FB can leave at the event port. -/
inductive IsFbPort : Option Event → Prop
  | none : IsFbPort none
  | addr (ss es : Offset) (v : Byte) : IsFbPort (some (.fbAddr ss es v))
  | msgType (ss es : Offset) (v : Byte) : IsFbPort (some (.fbMsgType ss es v))
  | dataLen (ss es : Offset) (v : Byte) : IsFbPort (some (.fbDataLen ss es v))
  | payload (ss es : Offset) (n : Byte) : IsFbPort (some (.fbPayload ss es n))
  | frame (ss es : Offset) (a m n : Byte) (payload : List Byte) (ck : Byte) :
      IsFbPort (some (.fbFrame ss es a m n payload ck))

/-- The prelude's event is a gap event. -/
theorem isGapPort_gapEvent (c : Config) (r : FbRegs) (b : Beat) : IsGapPort (gapEvent c r b) := by
  unfold gapEvent
  split
  · exact .gap ..
  · exact .none

/-- The ports after an operation of unit FB. -/
theorem exec_fb_ports {i : Instr} {s t : State} (hu : i.unit = .fb) (h : exec i s = .next t) :
    IsGapPort t.fb.gapPort ∧ IsFbPort t.fb.evPort := by
  cases i <;> cases hu
  case fbWaitData => cases h
  case fbIllegal => cases h
  case fbGapAddr => cases h; exact ⟨isGapPort_gapEvent .., .addr ..⟩
  case fbPayload =>
    cases h
    refine ⟨.none, ?_⟩
    rw [State.finishFb_evPort]
    split
    · exact .payload ..
    · exact .none
  case fbReset => cases h; exact ⟨.none, .none⟩
  case fbNop => cases h; exact ⟨.none, .none⟩
  case fbAddr => cases h; exact ⟨.none, .addr ..⟩
  case fbMsgType => cases h; exact ⟨.none, .msgType ..⟩
  case fbDataLen => cases h; exact ⟨.none, .dataLen ..⟩
  case fbChecksum => cases h; exact ⟨.none, .frame ..⟩

/-- The gap pins show the port. -/
theorem showsGap_iff {port : Option Event} (h : IsGapPort port) (p : FbPins) :
    p.gapValid = port.isSome ∧ showsGap port p = true ↔ FbGapPins port p := by
  cases h with
  | none => simp [FbGapPins, showsGap]
  | gap ss es d => grind [FbGapPins, showsGap, Event.spanStart, Event.spanEnd, Event.durationPin]

/-- The event and frame pins show the port. -/
def ShowsEvent (port : Option Event) (p : FbPins) : Prop :=
  match port with
  | none => p.evKind = 0#4
  | some e =>
    p.evKind = e.kindCode ∧ p.evSs = e.spanStart ∧ p.evEs = e.spanEnd ∧ e.bytePin = some p.evByte ∧
      showsFrame e p = true

/-- The rows of R93 for the kinds that unit FB emits at the event port. -/
theorem showsEvent_iff {port : Option Event} (h : IsFbPort port) (p : FbPins) :
    p.evValid = port.isSome ∧ ShowsEvent port p ↔ FbPortPins port p := by
  cases h <;>
    grind [FbPortPins, FbEventPins, ShowsEvent, showsFrame, Event.kindCode, Event.spanStart, Event.spanEnd,
      Event.bytePin]

/-- What unit FB shows, taken apart into its side pins and its two ports. -/
theorem fbShows_iff {u : FbUnit} (hgap : IsGapPort u.gapPort) (hport : IsFbPort u.evPort) (p : FbPins) :
    u.shows p = true ↔ FbSidePins u p ∧ FbGapPins u.gapPort p ∧ FbPortPins u.evPort p := by
  rw [← showsGap_iff hgap, ← showsEvent_iff hport, FbSidePins, diagPins_iff, FbUnit.shows]
  cases u.evPort <;> simp only [ShowsEvent, Bool.and_eq_true, beq_iff_eq] <;> tauto

/-- Some gap pins show the port, whatever the other pins are. -/
theorem fbGapPins_exists {port : Option Event} (h : IsGapPort port) (p : FbPins) :
    ∃ valid ss es dur, FbGapPins port { p with gapValid := valid, gapSs := ss, gapEs := es, gapDur := dur } := by
  cases h with
  | none => exact ⟨false, p.gapSs, p.gapEs, p.gapDur, by simp [FbGapPins]⟩
  | gap ss es d => exact ⟨true, ss, es, d, by simp [FbGapPins]⟩

/-- Some event and frame pins show the port, whatever the other pins are. -/
theorem fbPortPins_exists {port : Option Event} (h : IsFbPort port) (p : FbPins) :
    ∃ valid kind ss es byte a m n ck, FbPortPins port
      { p with evValid := valid, evKind := kind, evSs := ss, evEs := es, evByte := byte,
               frAddress := a, frMsgType := m, frDataLength := n, frChecksum := ck } := by
  cases h with
  | none => exact ⟨false, 0#4, p.evSs, p.evEs, p.evByte, 0#8, 0#8, 0#8, 0#8, by simp [FbPortPins]⟩
  | addr ss es v => exact ⟨true, 9#4, ss, es, v, 0#8, 0#8, 0#8, 0#8, by simp [FbPortPins, FbEventPins]⟩
  | msgType ss es v => exact ⟨true, 10#4, ss, es, v, 0#8, 0#8, 0#8, 0#8, by simp [FbPortPins, FbEventPins]⟩
  | dataLen ss es v => exact ⟨true, 11#4, ss, es, v, 0#8, 0#8, 0#8, 0#8, by simp [FbPortPins, FbEventPins]⟩
  | payload ss es n => exact ⟨true, 12#4, ss, es, n, 0#8, 0#8, 0#8, 0#8, by simp [FbPortPins, FbEventPins]⟩
  | frame ss es a m n payload ck => exact ⟨true, 13#4, ss, es, ck, a, m, n, ck, by grind [FbPortPins, FbEventPins]⟩

/-- Pins with the side outputs of a unit and everything else at 0. -/
def FbUnit.sidePins (u : FbUnit) : FbPins :=
  ⟨false, 0#64, 0#64, 0#64, false, 0#4, 0#64, 0#64, 0#8, 0#8, 0#8, 0#8, 0#8, u.dgPort.isSome, diagPin u.dgPort,
    u.regs.state, u.regs.plCount⟩

/-- Some pins show a unit's outputs. -/
theorem fbShows_exists {u : FbUnit} (hgap : IsGapPort u.gapPort) (hport : IsFbPort u.evPort) :
    ∃ p : FbPins, u.shows p = true := by
  obtain ⟨valid, kind, ss, es, byte, a, m, n, ck, hev⟩ := fbPortPins_exists hport u.sidePins
  obtain ⟨gvalid, gss, ges, gdur, hg⟩ := fbGapPins_exists hgap
    { u.sidePins with evValid := valid, evKind := kind, evSs := ss, evEs := es, evByte := byte,
                      frAddress := a, frMsgType := m, frDataLength := n, frChecksum := ck }
  exact ⟨_, (fbShows_iff hgap hport _).mpr ⟨⟨rfl, rfl, (diagPins_iff ..).mpr ⟨rfl, rfl⟩⟩, hg, hev⟩⟩

/-- Two settings of the gap pins that show the same port agree where it is valid. -/
theorem fbGapPins_unique {port : Option Event} {p q : FbPins} (h : IsGapPort port) (hp : FbGapPins port p)
    (hq : FbGapPins port q) :
    p.gapValid = q.gapValid ∧
      (p.gapValid = true → p.gapSs = q.gapSs ∧ p.gapEs = q.gapEs ∧ p.gapDur = q.gapDur) := by
  cases h <;> simp_all [FbGapPins]

/-- Two settings of the event and frame pins that show the same port agree where it is valid. -/
theorem fbPortPins_unique {port : Option Event} {p q : FbPins} (h : IsFbPort port) (hp : FbPortPins port p)
    (hq : FbPortPins port q) :
    p.evValid = q.evValid ∧ p.evKind = q.evKind ∧
      (p.evValid = true → p.evSs = q.evSs ∧ p.evEs = q.evEs ∧ p.evByte = q.evByte) ∧
      (p.evKind = 13#4 → p.frAddress = q.frAddress ∧ p.frMsgType = q.frMsgType ∧
        p.frDataLength = q.frDataLength ∧ p.frChecksum = q.frChecksum) := by
  cases h <;> simp_all [FbPortPins, FbEventPins]

/-- Settles O37: the pins taken apart by `fbShows_iff`, with the ports that an operation of unit FB can leave. -/
theorem fbPinsShowTheEvents : Obligations.FbPinsShowTheEvents := by
  unfold Obligations.FbPinsShowTheEvents
  intro i s t hu h
  obtain ⟨hgap, hport⟩ := exec_fb_ports hu h
  refine ⟨fbShows_exists hgap hport, fbShows_iff hgap hport, fun p q hp hq => ?_⟩
  rw [fbShows_iff hgap hport, FbSidePins, diagPins_iff] at hp hq
  obtain ⟨⟨hpstate, hpcount, hpdv, hpdc⟩, hpg, hpe⟩ := hp
  obtain ⟨⟨hqstate, hqcount, hqdv, hqdc⟩, hqg, hqe⟩ := hq
  obtain ⟨hgv, hgapPins⟩ := fbGapPins_unique hgap hpg hqg
  obtain ⟨hev, hkind, hevPins, hframe⟩ := fbPortPins_unique hport hpe hqe
  exact ⟨hgv, hev, hkind, hpdv.trans hqdv.symm, hpdc.trans hqdc.symm, hpstate.trans hqstate.symm,
    hpcount.trans hqcount.symm, hgapPins, hevPins, hframe⟩

end Sys2Proof.Machine
end

section
/-! # What an edge can leave, and the invariants that every edge keeps (spec/10_state.md R29, R50)

An edge that goes on is a reset, an idle cycle or a beat of its unit; a beat leaves the registers of the operation that
the state code selects. The two lists are written out once, and each fact about steps is a case analysis over them. -/

namespace Sys2Proof.Machine

/-! ## Edges of unit SS -/

/-- What a clock edge of unit SS that goes on can be. -/
inductive SsEdge (s t : State) : Prop
  | reset (v : Bool) (b : Beat) (hd : nextDrive s = ⟨.ss, true, v, b⟩)
      (ht : t = s.consume.finishSs SsRegs.reset none none)
  | idle (b : Beat) (hd : nextDrive s = ⟨.ss, false, false, b⟩) (ht : t = s.consume.finishSs s.ss.regs none none)
  | beat (b : Beat) (hd : nextBeatIs s .ss b) (hl : s.cfg.runLenLegal = true)
      (ht : exec (ssSelects s.cfg s.ss.regs b) s.consume = .next t)

theorem ssEdge_of_step {s t : State} (hu : (nextDrive s).unit = .ss) (h : step s = .next t) : SsEdge s t := by
  rcases hd : nextDrive s with ⟨u, rst, inValid, b⟩
  obtain rfl : u = .ss := by simpa [hd] using hu
  match rst, inValid with
  | true, v => exact .reset v b hd (Host.Outcome.next.inj (h.symm.trans (step_of_ssResetCycle hd)))
  | false, false => exact .idle b hd (Host.Outcome.next.inj (h.symm.trans (step_of_ssIdleCycle hd)))
  | false, true =>
    have hl : s.cfg.runLenLegal = true := by
      simpa [runLenUnusable, hd] using runLenUnusable_of_next h
    exact .beat b hd hl ((step_of_ssBeat hl hd).symm.trans h)

/-- The registers that a beat of unit SS can leave, by the operation it selects. -/
inductive SsBeatLeaves (c : Config) (b : Beat) (r : SsRegs) : SsRegs → Prop
  | sync (hhit : ssHit c r b = true) :
      SsBeatLeaves c b r
        { r with
          run := 0#8, syncStart := runStart c r b, address := 0#16, count := 0#16, countNeg := false, value := 0#16,
          state := SsCode.addrLow }
  | idle (hhit : ssHit c r b = false) (hq : r.state = SsCode.awaitSync) : SsBeatLeaves c b r (syncMatcher c b r)
  | addrLo (hhit : ssHit c r b = false) (hq : r.state = SsCode.addrLow) :
      SsBeatLeaves c b r
        { syncMatcher c b r with address := zext16 b.byte, fieldStart := b.ss, state := SsCode.addrHigh }
  | addrHi (hhit : ssHit c r b = false) (hq : r.state = SsCode.addrHigh) :
      SsBeatLeaves c b r
        { syncMatcher c b r with
          address := withHighByte r.address b.byte
          state := if ssEsc c r b then SsCode.awaitSync else SsCode.countLow }
  | cntLo (hhit : ssHit c r b = false) (hq : r.state = SsCode.countLow) :
      SsBeatLeaves c b r
        { syncMatcher c b r with
          count := zext16 b.byte, countNeg := false, fieldStart := b.ss, state := SsCode.countHigh }
  | cntHi (hhit : ssHit c r b = false) (hq : r.state = SsCode.countHigh) :
      SsBeatLeaves c b r
        { syncMatcher c b r with count := withHighByte r.count b.byte, state := SsCode.dataLow }
  | dataLo (hhit : ssHit c r b = false) (hq : r.state = SsCode.dataLow) :
      SsBeatLeaves c b r
        { syncMatcher c b r with
          value := zext16 b.byte, count := decCount r, countNeg := decCountNeg r, fieldStart := b.ss,
          state := SsCode.dataHigh }
  | dataHi (hhit : ssHit c r b = false) (hq : r.state = SsCode.dataHigh) :
      SsBeatLeaves c b r
        { syncMatcher c b r with
          value := withHighByte r.value b.byte, count := decCount r, countNeg := decCountNeg r,
          address := r.address + 2#16,
          state := if ssRecordEnds (decCount r) (decCountNeg r) then SsCode.addrLow else SsCode.dataLow }

theorem ssBeatLeaves_of_exec {s t : State} {b : Beat} (h : exec (ssSelects s.cfg s.ss.regs b) s = .next t) :
    SsBeatLeaves s.cfg b s.ss.regs t.ss.regs := by
  cases hhit : ssHit s.cfg s.ss.regs b
  case true =>
    rw [ssSelects, hhit] at h
    cases h
    exact .sync hhit
  case false =>
    rw [ssSelects, hhit] at h
    rcases stateCode_cases s.ss.regs.state with hq | hq | hq | hq | hq | hq | hq | hq <;> rw [hq] at h <;> cases h
    · exact .idle hhit hq
    · exact .addrLo hhit hq
    · exact .addrHi hhit hq
    · exact .cntLo hhit hq
    · exact .cntHi hhit hq
    · exact .dataLo hhit hq
    · exact .dataHi hhit hq

/-- Every beat leaves `ss.run` as the matcher does: at a hit the matcher clears it too. -/
theorem SsBeatLeaves.run {c : Config} {b : Beat} {r r' : SsRegs} (h : SsBeatLeaves c b r r') :
    r'.run = (syncMatcher c b r).run := by
  cases h
  case sync hhit => simp [syncMatcher_run, hhit]
  all_goals rfl

/-! ## Edges of unit FB -/

/-- What a clock edge of unit FB that goes on can be. -/
inductive FbEdge (s t : State) : Prop
  | reset (v : Bool) (b : Beat) (hd : nextDrive s = ⟨.fb, true, v, b⟩)
      (ht : t = s.consume.finishFb FbRegs.reset s.fb.pl none none none)
  | idle (b : Beat) (hd : nextDrive s = ⟨.fb, false, false, b⟩)
      (ht : t = s.consume.finishFb s.fb.regs s.fb.pl none none none)
  | beat (b : Beat) (hd : nextBeatIs s .fb b) (ht : exec (fbSelects s.cfg s.fb.regs b) s.consume = .next t)

theorem fbEdge_of_step {s t : State} (hu : (nextDrive s).unit = .fb) (h : step s = .next t) : FbEdge s t := by
  rcases hd : nextDrive s with ⟨u, rst, inValid, b⟩
  obtain rfl : u = .fb := by simpa [hd] using hu
  match rst, inValid with
  | true, v => exact .reset v b hd (Host.Outcome.next.inj (h.symm.trans (step_of_fbResetCycle hd)))
  | false, false => exact .idle b hd (Host.Outcome.next.inj (h.symm.trans (step_of_fbIdleCycle hd)))
  | false, true => exact .beat b hd ((step_of_fbBeat hd).symm.trans h)

/-- The registers and the buffer that a beat of unit FB can leave, by the operation it selects. -/
inductive FbBeatLeaves (c : Config) (b : Beat) (r : FbRegs) (pl : Memory) : FbRegs → Memory → Prop
  | gapAddr (hg : fbG c r b = true) :
      FbBeatLeaves c b r pl (offsetUpdate b (takeAddress b (frameReset r))) pl
  | addr (hq : r.state = FbCode.sync) : FbBeatLeaves c b r pl (offsetUpdate b (takeAddress b r)) pl
  | msgType (hq : r.state = FbCode.waitAddress) :
      FbBeatLeaves c b r pl (offsetUpdate b { r with msgType := b.byte, state := FbCode.waitMsgType }) pl
  | dataLen (hq : r.state = FbCode.waitMsgType) :
      FbBeatLeaves c b r pl
        (offsetUpdate b
          { r with
            dataLength := b.byte
            state := if b.byte = 0#8 then FbCode.waitChecksum else FbCode.waitDataLength }) pl
  | payload (hq : r.state = FbCode.waitDataLength) :
      FbBeatLeaves c b r pl
        (offsetUpdate b
          { r with
            plStart := if fbRoom r then (if r.plCount = 0#8 then b.ss else r.plStart) else r.plStart
            plCount := fbPlCountAfter r
            state := if fbDone r then FbCode.waitChecksum else r.state })
        (if fbRoom r then pl.write r.plCount.toNat b.byte else pl)
  | checksum (hq : r.state = FbCode.waitChecksum) :
      FbBeatLeaves c b r pl
        (offsetUpdate b
          (if fbBcast r then frameReset { r with checksum := b.byte } else { r with checksum := b.byte })) pl

theorem fbBeatLeaves_of_exec {s t : State} {b : Beat} (h : exec (fbSelects s.cfg s.fb.regs b) s = .next t) :
    FbBeatLeaves s.cfg b s.fb.regs s.fb.pl t.fb.regs t.fb.pl := by
  cases hg : fbG s.cfg s.fb.regs b
  case true =>
    rw [fbSelects, hg] at h
    cases h
    exact .gapAddr hg
  case false =>
    rw [fbSelects, hg] at h
    rcases stateCode_cases s.fb.regs.state with hq | hq | hq | hq | hq | hq | hq | hq <;> rw [hq] at h <;> cases h
    · exact .addr hq
    · exact .msgType hq
    · exact .dataLen hq
    · exact .payload hq
    · exact .checksum hq

/-- Every beat of unit FB leaves its end as the previous byte's. -/
theorem FbBeatLeaves.lastValid {c : Config} {b : Beat} {r r' : FbRegs} {pl pl' : Memory}
    (h : FbBeatLeaves c b r pl r' pl') : r'.lastValid = true := by
  cases h <;> rfl

/-! ## The invariants of unit SS -/

/-- A low-byte operation leaves a zero high byte. -/
theorem zext16_lt (b : Byte) : (zext16 b).toNat < 256 := by
  rw [zext16_toNat]; exact b.isLt

/-- Where no data word is due the sticky flag is clear. -/
theorem countNeg_eq_false {r : SsRegs}
    (h : r.countNeg = true → r.state = SsCode.dataLow ∨ r.state = SsCode.dataHigh)
    (hlow : r.state ≠ SsCode.dataLow) (hhigh : r.state ≠ SsCode.dataHigh) : r.countNeg = false := by
  rw [Bool.eq_false_iff]
  exact fun hneg => (h hneg).elim hlow hhigh

/-- A record that ends has not gone below zero. -/
theorem countNeg_of_recordEnds {count : Half} {neg : Bool} (h : ssRecordEnds count neg = true) : neg = false := by
  have hparts : count = 0#16 ∧ neg = false := by simpa [ssRecordEnds] using h
  exact hparts.2

/-- Every beat keeps the invariants of unit SS. -/
theorem SsBeatLeaves.inv {c : Config} {b : Beat} {r r' : SsRegs} (h : SsBeatLeaves c b r r') (hinv : SsInv c r) :
    SsInv c r' := by
  have hrun : r'.run.toNat < c.syncRunLen.toNat := h.run ▸ syncMatcher_run_lt hinv.2.1
  obtain ⟨-, -, hneg, -⟩ := hinv
  cases h
  case sync => refine ⟨?_, hrun, ?_, ?_, ?_, ?_⟩ <;> simp +decide
  case idle hq =>
    have hclear := countNeg_eq_false hneg (by simp +decide [hq]) (by simp +decide [hq])
    refine ⟨?_, hrun, ?_, ?_, ?_, ?_⟩ <;> simp +decide [hq, hclear]
  case addrLo hq =>
    have hclear := countNeg_eq_false hneg (by simp +decide [hq]) (by simp +decide [hq])
    refine ⟨?_, hrun, ?_, fun _ => zext16_lt _, ?_, ?_⟩ <;> simp +decide [hclear]
  case addrHi hq =>
    have hclear := countNeg_eq_false hneg (by simp +decide [hq]) (by simp +decide [hq])
    cases hesc : ssEsc c r b
    · refine ⟨?_, hrun, ?_, ?_, ?_, ?_⟩ <;> simp +decide [hclear]
    · refine ⟨?_, hrun, ?_, ?_, ?_, ?_⟩ <;> simp +decide [hclear]
  case cntLo => refine ⟨?_, hrun, ?_, ?_, fun _ => ⟨zext16_lt _, rfl⟩, ?_⟩ <;> simp +decide
  case cntHi => refine ⟨?_, hrun, fun _ => .inl rfl, ?_, ?_, ?_⟩ <;> simp +decide
  case dataLo => refine ⟨?_, hrun, fun _ => .inr rfl, ?_, ?_, fun _ => zext16_lt _⟩ <;> simp +decide
  case dataHi =>
    cases hend : ssRecordEnds (decCount r) (decCountNeg r)
    · refine ⟨?_, hrun, ?_, ?_, ?_, ?_⟩ <;> simp +decide
    · have hclear := countNeg_of_recordEnds hend
      refine ⟨?_, hrun, ?_, ?_, ?_, ?_⟩ <;> simp +decide [hclear]

/-- The registers after reset meet the invariants under any legal run length. -/
theorem ssInv_reset {c : Config} (hl : c.runLenLegal = true) : SsInv c SsRegs.reset := by
  have hpos : c.syncRunLen.toNat ≠ 0 := by simpa [Config.runLenLegal, BitVec.toNat_eq] using hl
  exact ⟨by decide, Nat.pos_of_ne_zero hpos, by decide, by decide, by decide, by decide⟩

/-- Every edge of unit SS keeps its invariants. -/
theorem SsEdge.inv {s t : State} (h : SsEdge s t) (hl : s.cfg.runLenLegal = true) (hinv : SsInv s.cfg s.ss.regs) :
    SsInv s.cfg t.ss.regs := by
  cases h with
  | reset v b hd ht => subst ht; exact ssInv_reset hl
  | idle b hd ht => subst ht; exact hinv
  | beat b hd hl ht => exact (ssBeatLeaves_of_exec (s := s.consume) ht).inv hinv

/-! ## The invariants of unit FB -/

/-- What the invariants say of the buffer: the first `n` entries are written, no entry beyond 254 is, and the form is
canonical. -/
def PlInv (n : Nat) (pl : Memory) : Prop :=
  (∀ i < n, (pl.written? i).isSome = true) ∧ (∀ e ∈ pl, e.1 ≤ 254) ∧ pl.wf = true

/-- A shorter frame needs fewer entries. -/
theorem PlInv.mono {m n : Nat} {pl : Memory} (h : PlInv n pl) (hmn : m ≤ n) : PlInv m pl :=
  ⟨fun i hi => h.1 i (by omega), h.2⟩

/-- Appending a byte to the payload writes the next entry. -/
theorem PlInv.write {n : Nat} {pl : Memory} (h : PlInv n pl) (v : Byte) (hn : n ≤ 254) :
    PlInv (n + 1) (pl.write n v) := by
  obtain ⟨hwritten, hbound, hwf⟩ := h
  refine ⟨fun i hi => ?_, fun e he => ?_, Memory.wf_write v (by unfold plDepth; omega) hwf⟩
  · by_cases heq : i = n
    · simp [heq]
    · rw [Memory.written?_write_other _ _ _ _ heq]
      exact hwritten i (by omega)
  · rcases Memory.mem_write he with rfl | hmem
    · exact hn
    · exact hbound e hmem

/-- Room for one more byte in the payload, and the count after it. -/
theorem fbPlCountAfter_toNat {r : FbRegs} (h : fbRoom r = true) :
    (fbPlCountAfter r).toNat = r.plCount.toNat + 1 := by
  have hlt := (fbRoom_iff r).mp h
  have hlen := r.dataLength.isLt
  rw [fbPlCountAfter_of_room h, BitVec.toNat_add_of_lt (by simp only [BitVec.toNat_ofNat]; omega)]
  rfl

/-- Every beat of unit FB keeps its invariants. -/
theorem FbBeatLeaves.inv {c : Config} {b : Beat} {r r' : FbRegs} {pl pl' : Memory}
    (h : FbBeatLeaves c b r pl r' pl') (hinv : FbInv r pl) : FbInv r' pl' := by
  obtain ⟨-, hzero, hroom, hfull, hpl⟩ := hinv
  have hplInv : PlInv r.plCount.toNat pl := hpl
  cases h
  case gapAddr => refine ⟨?_, ?_, ?_, ?_, hplInv.mono (Nat.zero_le _)⟩ <;> simp +decide
  case addr hq => refine ⟨?_, ?_, ?_, ?_, hpl⟩ <;> simp +decide [hzero, hq]
  case msgType hq => refine ⟨?_, ?_, ?_, ?_, hpl⟩ <;> simp +decide [hzero, hq]
  case dataLen hq =>
    have hcount : r.plCount = 0#8 := hzero (by simp [hq])
    by_cases hz : b.byte = 0#8
    · refine ⟨?_, ?_, ?_, ?_, hpl⟩ <;> simp +decide [hz, hcount]
    · have hdue : 1#8 ≤ b.byte ∧ 0#8 < b.byte := by constructor <;> bv_omega
      refine ⟨?_, ?_, fun _ => ?_, ?_, hpl⟩
      case refine_3 => simpa [hcount] using hdue
      all_goals simp +decide [hz]
  case payload hq =>
    have hlt : fbRoom r = true := decide_eq_true (hroom hq).2
    have hnat := fbPlCountAfter_toNat hlt
    have hcount := (fbRoom_iff r).mp hlt
    have hlen := r.dataLength.isLt
    have hpl' : PlInv (fbPlCountAfter r).toNat (pl.write r.plCount.toNat b.byte) :=
      hnat ▸ hplInv.write b.byte (by omega)
    simp only [hlt, if_true]
    cases hdone : fbDone r
    · rw [fbDone_of_room hlt, decide_eq_false_iff_not] at hdone
      have hroom' : fbPlCountAfter r < r.dataLength := BitVec.lt_def.mpr (by omega)
      refine ⟨?_, ?_, fun _ => ⟨(hroom hq).1, hroom'⟩, ?_, hpl'⟩ <;> simp +decide [hq]
    · refine ⟨?_, ?_, ?_, fun _ => beq_iff_eq.mp hdone, hpl'⟩ <;> simp +decide
  case checksum hq =>
    cases hb : fbBcast r
    · refine ⟨?_, ?_, ?_, fun _ => hfull hq, hpl⟩ <;> simp +decide [hq]
    · refine ⟨?_, ?_, ?_, ?_, hplInv.mono (Nat.zero_le _)⟩ <;> simp +decide

/-- The registers after reset meet the invariants with the buffer that `rst` left alone. -/
theorem fbInv_reset {r : FbRegs} {pl : Memory} (h : FbInv r pl) : FbInv FbRegs.reset pl := by
  obtain ⟨-, -, -, -, hpl⟩ := h
  have hplInv : PlInv r.plCount.toNat pl := hpl
  exact ⟨by decide, by decide, by decide, by decide, hplInv.mono (Nat.zero_le _)⟩

/-- Every edge of unit FB keeps its invariants: a reset clears the count and leaves `PL`. -/
theorem FbEdge.inv {s t : State} (h : FbEdge s t) (hinv : FbInv s.fb.regs s.fb.pl) : FbInv t.fb.regs t.fb.pl := by
  cases h with
  | reset v b hd ht =>
    subst ht
    exact fbInv_reset hinv
  | idle b hd ht => subst ht; exact hinv
  | beat b hd ht => exact (fbBeatLeaves_of_exec (s := s.consume) ht).inv hinv

/-! ## Steps -/

/-- A step that goes on is an edge of one unit, and leaves the other unit, and the configuration, as they were. -/
theorem step_edge {s t : State} (h : step s = .next t) :
    ((nextDrive s).unit = .ss ∧ SsEdge s t ∧ t.cfg = s.cfg ∧ t.fb = s.fb) ∨
      ((nextDrive s).unit = .fb ∧ FbEdge s t ∧ t.cfg = s.cfg ∧ t.ss = s.ss) := by
  cases hu : (nextDrive s).unit with
  | ss =>
    obtain ⟨hcfg, hfb, -⟩ := exec_ss_local ((selects_unit s _).trans hu) (exec_of_step h)
    exact .inl ⟨rfl, ssEdge_of_step hu h, hcfg, hfb⟩
  | fb =>
    obtain ⟨hcfg, hss, -⟩ := exec_fb_local ((selects_unit s _).trans hu) (exec_of_step h)
    exact .inr ⟨rfl, fbEdge_of_step hu h, hcfg, hss⟩

/-- Settles O41: the unit whose edge it is keeps its invariants (`SsEdge.inv`, `FbEdge.inv`), the other does not
move. -/
theorem everyStepKeepsTheInvariants : Obligations.EveryStepKeepsTheInvariants := by
  unfold Obligations.EveryStepKeepsTheInvariants
  rintro s t ⟨hlegal, hss, hfb⟩ h
  rcases step_edge h with ⟨-, hedge, hcfg, hother⟩ | ⟨-, hedge, hcfg, hother⟩
  · exact ⟨by rwa [hcfg], by rw [hcfg]; exact hedge.inv hlegal hss, by rwa [hother]⟩
  · exact ⟨by rwa [hcfg], by rwa [hcfg, hother], hedge.inv hfb⟩

/-! ## What clears the flags (spec/70_reset_and_hazards.md R201) -/

/-- A beat that clears `ss.count_neg` is a sync hit: `SS.CNT_LO` finds it clear. -/
theorem SsBeatLeaves.hit_of_cleared {c : Config} {b : Beat} {r r' : SsRegs} (h : SsBeatLeaves c b r r')
    (hinv : SsInv c r) (hset : r.countNeg = true) (hclear : r'.countNeg = false) : ssHit c r b = true := by
  obtain ⟨-, -, hneg, -⟩ := hinv
  cases h
  case sync hhit => exact hhit
  case cntLo hq =>
    rw [countNeg_eq_false hneg (by simp +decide [hq]) (by simp +decide [hq])] at hset
    cases hset
  all_goals simp [hset, decCountNeg] at hclear

/-- Settles O43: unit by unit, over the kinds of edges. -/
theorem whatClearsTheFlags : Obligations.WhatClearsTheFlags := by
  unfold Obligations.WhatClearsTheFlags
  rintro s t ⟨-, hss, -⟩ h
  rcases step_edge h with ⟨hu, hedge, -, hother⟩ | ⟨hu, hedge, -, hother⟩
  · refine ⟨fun hset hclear => ?_, fun hset hclear => ⟨hu, ?_⟩⟩
    · rw [hother, hset] at hclear
      cases hclear
    · cases hedge with
      | reset v b hd ht => exact .inl (by rw [hd])
      | idle b hd ht =>
        subst ht
        rw [State.finishSs_regs, hset] at hclear
        cases hclear
      | beat b hd hl ht =>
        unfold nextBeatIs at hd
        have hhit := (ssBeatLeaves_of_exec (s := s.consume) ht).hit_of_cleared hss hset hclear
        rw [hd]
        exact .inr ⟨rfl, (ssHit_iff ..).mp hhit⟩
  · refine ⟨fun hset hclear => ⟨hu, ?_⟩, fun hset hclear => ?_⟩
    · cases hedge with
      | reset v b hd ht => rw [hd]
      | idle b hd ht =>
        subst ht
        rw [State.finishFb_regs, hset] at hclear
        cases hclear
      | beat b hd ht =>
        rw [(fbBeatLeaves_of_exec (s := s.consume) ht).lastValid] at hclear
        cases hclear
    · rw [hother, hset] at hclear
      cases hclear

end Sys2Proof.Machine
end

section
/-! # The units do not interfere (spec/60_exceptions.md R186)

An operation of one unit reads and writes that unit alone, so an edge does the same whatever the other unit holds and
whatever the host drives after it; a run is put together from that one fact about edges. -/

namespace Sys2Proof.Machine

/-! ## One edge -/

/-- An operation of unit SS does the same whatever unit FB holds and whatever is driven later. -/
theorem exec_ss_frame {i : Instr} {s t : State} (hu : i.unit = .ss) (h : exec i s = .next t) (f : FbUnit)
    (l : List Drive) : exec i { s with fb := f, input := l } = .next { t with fb := f, input := l } := by
  cases i <;> cases hu
  case ssIllegal => cases h
  all_goals cases h; rfl

/-- An operation of unit FB does the same whatever unit SS holds and whatever is driven later. -/
theorem exec_fb_frame {i : Instr} {s t : State} (hu : i.unit = .fb) (h : exec i s = .next t) (x : SsUnit)
    (l : List Drive) : exec i { s with ss := x, input := l } = .next { t with ss := x, input := l } := by
  cases i <;> cases hu
  case fbWaitData => cases h
  case fbIllegal => cases h
  all_goals cases h; rfl

/-- What an edge of unit SS selects is a matter of the configuration and unit SS. -/
theorem selects_ss_frame {s : State} {d : Drive} (hu : d.unit = .ss) (f : FbUnit) (l : List Drive) :
    selects { s with fb := f, input := l } d = selects s d := by
  simp only [selects, hu]

/-- What an edge of unit FB selects is a matter of the configuration and unit FB. -/
theorem selects_fb_frame {s : State} {d : Drive} (hu : d.unit = .fb) (x : SsUnit) (l : List Drive) :
    selects { s with ss := x, input := l } d = selects s d := by
  simp only [selects, hu]

/-- An edge of unit SS does the same whatever unit FB holds and whatever is driven later. -/
theorem step_ss_frame {s t : State} (hu : (nextDrive s).unit = .ss) (h : step s = .next t) (f : FbUnit)
    {l : List Drive} (hl : l.headD Drive.idle = nextDrive s) :
    step { s with fb := f, input := l } = .next { t with fb := f, input := l.tail } := by
  have hd : nextDrive { s with fb := f, input := l } = nextDrive s := hl
  have husable : runLenUnusable { s with fb := f, input := l } = false := by
    simpa only [runLenUnusable, hd] using runLenUnusable_of_next h
  rw [step_eq_selects husable, hd, selects_ss_frame hu]
  exact exec_ss_frame ((selects_unit s _).trans hu) (exec_of_step h) f l.tail

/-- An edge of unit FB does the same whatever unit SS holds and whatever is driven later. -/
theorem step_fb_frame {s t : State} (hu : (nextDrive s).unit = .fb) (h : step s = .next t) (x : SsUnit)
    {l : List Drive} (hl : l.headD Drive.idle = nextDrive s) :
    step { s with ss := x, input := l } = .next { t with ss := x, input := l.tail } := by
  have hd : nextDrive { s with ss := x, input := l } = nextDrive s := hl
  rw [step_eq_selects (runLenUnusable_of_fb (by rw [hd, hu])), hd, selects_fb_frame hu]
  exact exec_fb_frame ((selects_unit s _).trans hu) (exec_of_step h) x l.tail

/-! ## Runs -/

/-- The first edge of a run and the rest of it. -/
theorem steps_succ_eq_next {n : Nat} {s t : State} (h : steps (n + 1) s = .next t) :
    ∃ s', step s = .next s' ∧ steps n s' = .next t := by
  unfold steps at h
  split at h
  next s' hs => exact ⟨s', hs, h⟩
  · cases h
  · cases h

/-- The edge that a non-empty input drives. -/
theorem nextDrive_of_input {s : State} {d : Drive} {ds : List Drive} (h : s.input = d :: ds) : nextDrive s = d := by
  rw [nextDrive, h, List.headD_cons]

/-- A step leaves the rest of the input. -/
theorem input_of_step {s t : State} {d : Drive} {ds : List Drive} (hin : s.input = d :: ds) (h : step s = .next t) :
    t.input = ds := by
  rw [(stepKeepsTheConfiguration s t h).2, hin, List.tail_cons]

/-- The edges of one unit, in order. -/
def edgesOf (u : UnitId) (ds : List Drive) : List Drive := ds.filter (fun d => d.unit == u)

theorem edgesOf_cons_same {u : UnitId} {d : Drive} (h : d.unit = u) (ds : List Drive) :
    edgesOf u (d :: ds) = d :: edgesOf u ds := by
  simp [edgesOf, h]

theorem edgesOf_cons_other {u : UnitId} {d : Drive} (h : d.unit ≠ u) (ds : List Drive) :
    edgesOf u (d :: ds) = edgesOf u ds := by
  simp [edgesOf, h]

/-- Unit SS at the end of a run is what the run of its own edges leaves. -/
theorem steps_edgesOf_ss (ds : List Drive) {s t : State} (hin : s.input = ds) (h : steps ds.length s = .next t)
    (f : FbUnit) :
    ∃ u, steps (edgesOf .ss ds).length { s with fb := f, input := edgesOf .ss ds } = .next u ∧ u.ss = t.ss := by
  induction ds generalizing s with
  | nil => cases h; exact ⟨_, rfl, rfl⟩
  | cons d ds ih =>
    obtain ⟨s', hstep, hrest⟩ := steps_succ_eq_next h
    have hd := nextDrive_of_input hin
    obtain ⟨u, hu, hss⟩ := ih (input_of_step hin hstep) hrest
    refine ⟨u, ?_, hss⟩
    cases hunit : d.unit with
    | ss =>
      rw [edgesOf_cons_same hunit, List.length_cons]
      rwa [steps_succ_of_next (step_ss_frame (by rw [hd, hunit]) hstep f (l := d :: edgesOf .ss ds) hd.symm)]
    | fb =>
      rw [edgesOf_cons_other (by simp [hunit])]
      have hlocal := exec_fb_local ((selects_unit s _).trans (by rw [hd, hunit])) (exec_of_step hstep)
      rwa [hlocal.1, hlocal.2.1] at hu

/-- Unit FB at the end of a run is what the run of its own edges leaves. -/
theorem steps_edgesOf_fb (ds : List Drive) {s t : State} (hin : s.input = ds) (h : steps ds.length s = .next t)
    (x : SsUnit) :
    ∃ u, steps (edgesOf .fb ds).length { s with ss := x, input := edgesOf .fb ds } = .next u ∧ u.fb = t.fb := by
  induction ds generalizing s with
  | nil => cases h; exact ⟨_, rfl, rfl⟩
  | cons d ds ih =>
    obtain ⟨s', hstep, hrest⟩ := steps_succ_eq_next h
    have hd := nextDrive_of_input hin
    obtain ⟨u, hu, hfb⟩ := ih (input_of_step hin hstep) hrest
    refine ⟨u, ?_, hfb⟩
    cases hunit : d.unit with
    | fb =>
      rw [edgesOf_cons_same hunit, List.length_cons]
      rwa [steps_succ_of_next (step_fb_frame (by rw [hd, hunit]) hstep x (l := d :: edgesOf .fb ds) hd.symm)]
    | ss =>
      rw [edgesOf_cons_other (by simp [hunit])]
      have hlocal := exec_ss_local ((selects_unit s _).trans (by rw [hd, hunit])) (exec_of_step hstep)
      rwa [hlocal.1, hlocal.2.1] at hu

/-- Settles O52: unit by unit, by induction on the edges that the run consumes. -/
theorem unitsDoNotInterfere : Obligations.UnitsDoNotInterfere :=
  fun s _ h => ⟨steps_edgesOf_ss s.input rfl h, steps_edgesOf_fb s.input rfl h⟩

/-! ## Idle cycles -/

/-- Two states hold the same: the configuration, both units' registers, `PL` and the records. The ports and the input
may differ. -/
structure SameHeld (s u : State) : Prop where
  cfg : u.cfg = s.cfg
  ssRegs : u.ss.regs = s.ss.regs
  ssEvents : u.ss.events = s.ss.events
  ssDiags : u.ss.diags = s.ss.diags
  fbRegs : u.fb.regs = s.fb.regs
  pl : u.fb.pl = s.fb.pl
  fbEvents : u.fb.events = s.fb.events
  fbDiags : u.fb.diags = s.fb.diags

/-- States that hold the same still do after unit SS has taken the same new registers and emitted the same. -/
theorem SameHeld.finishSs {s u : State} (h : SameHeld s u) (r : SsRegs) (ev : Option Event) (dg : Option Diag) :
    SameHeld (s.finishSs r ev dg) (u.finishSs r ev dg) where
  cfg := h.cfg
  ssRegs := rfl
  ssEvents := congrArg (appendItem · ev) h.ssEvents
  ssDiags := congrArg (appendItem · dg) h.ssDiags
  fbRegs := h.fbRegs
  pl := h.pl
  fbEvents := h.fbEvents
  fbDiags := h.fbDiags

/-- The same for unit FB. -/
theorem SameHeld.finishFb {s u : State} (h : SameHeld s u) (r : FbRegs) (pl : Memory) (gap ev : Option Event)
    (dg : Option Diag) : SameHeld (s.finishFb r pl gap ev dg) (u.finishFb r pl gap ev dg) where
  cfg := h.cfg
  ssRegs := h.ssRegs
  ssEvents := h.ssEvents
  ssDiags := h.ssDiags
  fbRegs := rfl
  pl := rfl
  fbEvents := congrArg (fun l => appendItem (appendItem l gap) ev) h.fbEvents
  fbDiags := congrArg (appendItem · dg) h.fbDiags

/-- An operation of unit SS reads no more than what the states hold. -/
theorem SameHeld.exec_ss {i : Instr} {s u t : State} (h : SameHeld s u) (hu : i.unit = .ss)
    (hx : exec i s = .next t) : ∃ w, exec i u = .next w ∧ SameHeld t w := by
  have hcfg := h.cfg
  have hregs := h.ssRegs
  cases i <;> cases hu
  case ssReset => cases hx; exact ⟨_, rfl, h.finishSs ..⟩
  case ssIllegal => cases hx
  all_goals
    cases hx
    refine ⟨_, rfl, ?_⟩
    simp only [hcfg, hregs]
    exact h.finishSs ..

/-- An operation of unit FB reads no more than what the states hold. -/
theorem SameHeld.exec_fb {i : Instr} {s u t : State} (h : SameHeld s u) (hu : i.unit = .fb)
    (hx : exec i s = .next t) : ∃ w, exec i u = .next w ∧ SameHeld t w := by
  have hcfg := h.cfg
  have hregs := h.fbRegs
  have hpl := h.pl
  cases i <;> cases hu
  case fbWaitData => cases hx
  case fbIllegal => cases hx
  all_goals
    cases hx
    refine ⟨_, rfl, ?_⟩
    simp only [hcfg, hregs, hpl]
    exact h.finishFb ..

/-- An operation reads no more than what the states hold. -/
theorem SameHeld.exec {i : Instr} {s u t : State} (h : SameHeld s u) (hx : Machine.exec i s = .next t) :
    ∃ w, Machine.exec i u = .next w ∧ SameHeld t w := by
  cases hu : i.unit with
  | ss => exact h.exec_ss hu hx
  | fb => exact h.exec_fb hu hx

/-- States that hold the same select the same operation. -/
theorem SameHeld.selects {s u : State} (h : SameHeld s u) (d : Drive) :
    Machine.selects u d = Machine.selects s d := by
  simp only [Machine.selects, h.cfg, h.ssRegs, h.fbRegs]

/-- The same edge leads states that hold the same to states that hold the same. -/
theorem SameHeld.step {s u t : State} (h : SameHeld s u) (hd : nextDrive u = nextDrive s)
    (hstep : step s = .next t) : ∃ w, Machine.step u = .next w ∧ SameHeld t w := by
  have husable : runLenUnusable u = false := by
    simpa only [runLenUnusable, hd, h.cfg] using runLenUnusable_of_next hstep
  have hconsume : SameHeld s.consume u.consume := ⟨h.1, h.2, h.3, h.4, h.5, h.6, h.7, h.8⟩
  obtain ⟨w, hw, hheld⟩ := hconsume.exec (exec_of_step hstep)
  exact ⟨w, by rw [step_eq_selects husable, hd, h.selects, hw], hheld⟩

/-- An idle cycle leaves a state that holds the same. -/
theorem sameHeld_of_idle {s t : State} (hrst : (nextDrive s).rst = false) (hvalid : (nextDrive s).inValid = false)
    (h : step s = .next t) : SameHeld t s := by
  rcases hd : nextDrive s with ⟨u, rst, inValid, b⟩
  obtain rfl : rst = false := by simpa [hd] using hrst
  obtain rfl : inValid = false := by simpa [hd] using hvalid
  cases u with
  | ss =>
    cases h.symm.trans (step_of_ssIdleCycle hd)
    exact ⟨rfl, rfl, by simp, by simp, rfl, rfl, rfl, rfl⟩
  | fb =>
    cases h.symm.trans (step_of_fbIdleCycle hd)
    exact ⟨rfl, rfl, rfl, rfl, rfl, rfl, by simp, by simp⟩

/-- The edges that are no idle cycles, in order. -/
def busyEdges (ds : List Drive) : List Drive := ds.filter (fun d => d.rst || d.inValid)

/-- A run and the run of its busy edges, from states that hold the same, end in states that hold the same. -/
theorem steps_busyEdges (ds : List Drive) {s t w : State} (hin : s.input = ds) (h : steps ds.length s = .next t)
    (hheld : SameHeld s w) (hw : w.input = busyEdges ds) :
    ∃ u, steps (busyEdges ds).length w = .next u ∧ SameHeld t u := by
  induction ds generalizing s w with
  | nil => cases h; exact ⟨_, rfl, hheld⟩
  | cons d ds ih =>
    obtain ⟨s', hstep, hrest⟩ := steps_succ_eq_next h
    have hd := nextDrive_of_input hin
    have hin' := input_of_step hin hstep
    cases hbusy : (d.rst || d.inValid) with
    | true =>
      have hcons : busyEdges (d :: ds) = d :: busyEdges ds := List.filter_cons_of_pos hbusy
      rw [hcons] at hw ⊢
      obtain ⟨w', hwstep, hheld'⟩ := hheld.step ((nextDrive_of_input hw).trans hd.symm) hstep
      rw [List.length_cons, steps_succ_of_next hwstep]
      exact ih hin' hrest hheld' (input_of_step hw hwstep)
    | false =>
      have hcons : busyEdges (d :: ds) = busyEdges ds := List.filter_cons_of_neg (by simp [hbusy])
      rw [hcons] at hw ⊢
      rw [Bool.or_eq_false_iff, ← hd] at hbusy
      have hidle := sameHeld_of_idle hbusy.1 hbusy.2 hstep
      refine ih hin' hrest ?_ hw
      exact ⟨hheld.1.trans hidle.1, hheld.2.trans hidle.2, hheld.3.trans hidle.3, hheld.4.trans hidle.4,
        hheld.5.trans hidle.5, hheld.6.trans hidle.6, hheld.7.trans hidle.7, hheld.8.trans hidle.8⟩

/-- Settles O53: the run of the busy edges keeps pace with the run, edge by edge (`steps_busyEdges`). -/
theorem idleCyclesAreInvisible : Obligations.IdleCyclesAreInvisible := by
  unfold Obligations.IdleCyclesAreInvisible
  intro s t h
  obtain ⟨u, hu, hheld⟩ := steps_busyEdges s.input (w := { s with input := busyEdges s.input }) rfl h
    ⟨rfl, rfl, rfl, rfl, rfl, rfl, rfl, rfl⟩ rfl
  exact ⟨u, hu, hheld.ssRegs, hheld.ssEvents, hheld.ssDiags, hheld.fbRegs, hheld.pl, hheld.fbEvents, hheld.fbDiags⟩

end Sys2Proof.Machine
end

section
/-! # The width of `ss.run` and the countdown (spec/10_state.md R22, spec/40_sync_stream_ops.md R120) -/

namespace Sys2Proof.Machine

/-! ## The field of `ss.run` -/

/-- The matcher leaves a value that fits the register. -/
theorem syncMatcher_run_lt_pow (c : Config) (b : Beat) (r : SsRegs) :
    (syncMatcher c b r).run.toNat < 2 ^ runWidth c := by
  rw [syncMatcher_run]
  split
  · rw [runOfNat_toNat]
    exact Nat.mod_lt _ (Nat.two_pow_pos _)
  · exact Nat.two_pow_pos _

/-- Every edge of unit SS keeps the field inside the register's width. -/
theorem SsEdge.run_lt_pow {s t : State} (h : SsEdge s t) (hlt : s.ss.regs.run.toNat < 2 ^ runWidth s.cfg) :
    t.ss.regs.run.toNat < 2 ^ runWidth s.cfg := by
  cases h with
  | reset v b hd ht => subst ht; exact Nat.two_pow_pos _
  | idle b hd ht => subst ht; exact hlt
  | beat b hd hl ht =>
    rw [(ssBeatLeaves_of_exec (s := s.consume) ht).run]
    exact syncMatcher_run_lt_pow ..

section AgreeingFields

variable {s : State} {v : BitVec 8}

/-- The matcher reads no more of the field than the register. -/
theorem syncMatcher_withRun (b : Beat)
    (hv : v.toNat % 2 ^ runWidth s.cfg = s.ss.regs.run.toNat % 2 ^ runWidth s.cfg) :
    syncMatcher s.cfg b (s.withRun v).ss.regs = syncMatcher s.cfg b s.ss.regs := by
  have hhit := ssHit_withRun b hv
  have hrun := ssRun_withRun hv
  unfold syncMatcher runStart
  rw [hhit, hrun]
  rfl

/-- A beat does the same whatever the field holds above the register's width. -/
theorem exec_withRun {i : Instr} {b : Beat} (hu : i.unit = .ss) (hb : i.beat? = some b)
    (hv : v.toNat % 2 ^ runWidth s.cfg = s.ss.regs.run.toNat % 2 ^ runWidth s.cfg) :
    exec i (s.withRun v) = exec i s := by
  have hmatcher := syncMatcher_withRun b hv
  cases i <;> cases hu <;> cases hb
  case ssSync =>
    have hstart : runStart s.cfg (s.withRun v).ss.regs b = runStart s.cfg s.ss.regs b := by
      rw [runStart, ssRun_withRun hv]
      rfl
    simp only [exec, execSsSync, State.withRun_cfg, hstart]
    rfl
  case ssIllegal => rfl
  all_goals
    simp only [exec, execSsIdle, execSsAddrLo, execSsAddrHi, execSsCntLo, execSsCntHi, execSsDataLo, execSsDataHi,
      State.withRun_cfg, hmatcher]
    rfl

/-- A beat selects the same operation whatever the field holds above the register's width. -/
theorem ssSelects_withRun (b : Beat)
    (hv : v.toNat % 2 ^ runWidth s.cfg = s.ss.regs.run.toNat % 2 ^ runWidth s.cfg) :
    ssSelects s.cfg (s.withRun v).ss.regs b = ssSelects s.cfg s.ss.regs b := by
  unfold ssSelects
  rw [ssHit_withRun b hv, State.withRun_state]

/-- Writing back what the field holds changes nothing. -/
theorem State.withRun_self (t : State) : t.withRun t.ss.regs.run = t := rfl

/-- An edge of unit SS does the same whatever the field holds above the register's width: a reset and a beat write the
field, an idle cycle hands it on. -/
theorem SsEdge.withRun {t : State} (h : SsEdge s t)
    (hv : v.toNat % 2 ^ runWidth s.cfg = s.ss.regs.run.toNat % 2 ^ runWidth s.cfg) :
    step (s.withRun v) = .next t ∨ t.ss.regs.run = s.ss.regs.run ∧ step (s.withRun v) = .next (t.withRun v) := by
  cases h with
  | reset w b hd ht =>
    subst ht
    exact .inl ((step_of_ssResetCycle (s := s.withRun v) hd).trans rfl)
  | idle b hd ht =>
    subst ht
    exact .inr ⟨rfl, (step_of_ssIdleCycle (s := s.withRun v) hd).trans rfl⟩
  | beat b hd hl ht =>
    have hsel := ssSelects_withRun b hv
    have hu : (ssSelects s.cfg s.ss.regs b).unit = .ss := by
      simpa [selects] using selects_unit s ⟨.ss, false, true, b⟩
    refine .inl ((step_of_ssBeat (s := s.withRun v) hl hd).trans ?_)
    rw [State.withRun_cfg, hsel, State.withRun_consume]
    exact (exec_withRun (s := s.consume) hu (ssSelects_beat ..) hv).trans ht

end AgreeingFields

/-- A step does the same whatever the field holds above the register's width: what differs is the field alone, and it
only where the step handed it on. -/
theorem step_withRun {s t : State} {v : BitVec 8} (h : step s = .next t)
    (hv : v.toNat % 2 ^ runWidth s.cfg = s.ss.regs.run.toNat % 2 ^ runWidth s.cfg) :
    step (s.withRun v) = .next t ∨ t.ss.regs.run = s.ss.regs.run ∧ step (s.withRun v) = .next (t.withRun v) := by
  rcases step_edge h with ⟨-, hedge, -⟩ | ⟨hu, -, -, hss⟩
  · exact hedge.withRun hv
  · refine .inr ⟨by rw [hss], ?_⟩
    have hframe := step_fb_frame hu h (s.withRun v).ss (l := s.input) rfl
    have hinput := (stepKeepsTheConfiguration s t h).2
    rw [← hinput] at hframe
    refine hframe.trans ?_
    rw [State.withRun, State.withRun, hss]

/-- Settles O44: the width by `runWidth_eq`; what the step writes by `SsEdge.run_lt_pow`, what it reads by
`step_withRun`. -/
theorem runRegisterHasItsWidth : Obligations.RunRegisterHasItsWidth := by
  unfold Obligations.RunRegisterHasItsWidth
  refine ⟨runWidth_eq, fun s t h hlt => ?_, fun s t v hv h => ?_⟩
  · rcases step_edge h with ⟨-, hedge, hcfg, -⟩ | ⟨-, -, hcfg, hss⟩
    · rw [hcfg]; exact hedge.run_lt_pow hlt
    · rwa [hcfg, hss]
  · have hcfg := (stepKeepsTheConfiguration s t h).1
    rcases step_withRun h hv with hsame | ⟨hrun, hfield⟩
    · exact ⟨t, hsame, rfl, rfl⟩
    · exact ⟨t.withRun v, hfield, rfl, by rw [State.withRun_run, hrun, hcfg, hv]⟩

/-! ## The countdown as an integer -/

/-- A 16-bit count that represents an integer in `0..65535` is zero exactly when the integer is. -/
theorem ofInt_eq_zero_iff {n : Int} (h0 : 0 ≤ n) (h1 : n ≤ 65535) : BitVec.ofInt 16 n = 0#16 ↔ n = 0 := by
  rw [BitVec.toNat_eq, BitVec.toNat_ofInt, BitVec.toNat_zero]
  omega

/-- A decrement takes one off the integer; the sticky flag records the borrow out of zero. -/
theorem CountdownIs.dec {r r' : SsRegs} {n : Int} (h : CountdownIs r n) (hn : n ≤ 65535)
    (hcount : r'.count = decCount r) (hneg : r'.countNeg = decCountNeg r) : CountdownIs r' (n - 1) := by
  obtain ⟨hval, hflag⟩ := h
  refine ⟨?_, ?_⟩
  · rw [hcount, decCount, hval]
    apply BitVec.eq_of_toNat_eq
    rw [BitVec.toNat_sub, BitVec.toNat_ofInt, BitVec.toNat_ofInt, BitVec.toNat_ofNat]
    omega
  · rw [hneg, decCountNeg_iff, hflag, hval]
    constructor
    · rintro (hlt | hzero)
      · omega
      · by_contra hge
        have := (ofInt_eq_zero_iff (by omega) hn).mp hzero
        omega
    · intro hlt
      by_cases h0 : n < 0
      · exact .inl h0
      · exact .inr ((ofInt_eq_zero_iff (by omega) hn).mpr (by omega))

/-- The record ends at a high byte exactly when the integer is then zero. -/
theorem CountdownIs.recordEnds_iff {r : SsRegs} {n : Int} (h : CountdownIs r n) (hn : n ≤ 65535) :
    ssRecordEnds (decCount r) (decCountNeg r) = true ↔ n - 1 = 0 := by
  obtain ⟨hval, hflag⟩ := h
  have hpos : r.countNeg = false ↔ 0 ≤ n := by
    rw [Bool.eq_false_iff, ne_eq, hflag]
    omega
  rw [ssRecordEnds_dec, hpos, hval, BitVec.toNat_ofInt]
  omega

/-- Settles O45: the load assembles the two bytes, and both data operations decrement. -/
theorem countdownIsAnUnboundedInteger : Obligations.CountdownIsAnUnboundedInteger := by
  unfold Obligations.CountdownIsAnUnboundedInteger
  refine ⟨fun lo hi s t u hlo hhi => ?_, fun b s t n hn hcount h => ?_, fun b s t n hn hcount h => ?_⟩
  · cases hlo
    cases hhi
    refine ⟨?_, ?_⟩
    · apply BitVec.eq_of_toNat_eq
      have h1 := lo.byte.isLt
      have h2 := hi.byte.isLt
      simp only [State.finishSs_regs, withHighByte_toNat, zext16_toNat, BitVec.toNat_ofInt]
      omega
    · simp only [State.finishSs_regs, syncMatcher_countNeg, Bool.false_eq_true, false_iff]
      omega
  · cases h
    exact hcount.dec hn rfl rfl
  · cases h
    refine ⟨hcount.dec hn rfl rfl, ?_⟩
    rw [← hcount.recordEnds_iff hn, State.finishSs_regs]
    cases ssRecordEnds (decCount s.ss.regs) (decCountNeg s.ss.regs) <;> simp +decide

/-! ## Records that never end -/

/-- A beat without a hit leaves a stuck record stuck: the low byte makes the parity even or sets the flag, the high byte
finds no countdown of one and makes the parity odd, or finds zero. -/
theorem SsBeatLeaves.stuck {c : Config} {b : Beat} {r r' : SsRegs} (h : SsBeatLeaves c b r r')
    (hhit : ssHit c r b = false) (hstuck : RecordStuck r) : RecordStuck r' := by
  have hdec := decCount_toNat r
  rcases hstuck with ⟨hq, hdue⟩ | ⟨hq, hdue⟩
  · cases h
    case sync hsync => rw [hhit] at hsync; cases hsync
    case dataLo =>
      refine .inr ⟨rfl, ?_⟩
      show decCountNeg r = true ∨ (decCount r).toNat % 2 = 0
      rw [decCountNeg_iff]
      rcases hdue with hneg | hzero | hodd
      · exact .inl (.inl hneg)
      · exact .inl (.inr hzero)
      · exact .inr (by omega)
    all_goals
      rename_i hother
      exact absurd (hq.symm.trans hother) (by decide)
  · cases h
    case sync hsync => rw [hhit] at hsync; cases hsync
    case dataHi =>
      have hends : ssRecordEnds (decCount r) (decCountNeg r) = false := by
        rw [Bool.eq_false_iff, ne_eq, ssRecordEnds_dec]
        rintro ⟨hone, hclear⟩
        rcases hdue with hneg | heven
        · rw [hneg] at hclear; cases hclear
        · omega
      refine .inl ⟨by simp [hends], ?_⟩
      show decCountNeg r = true ∨ decCount r = 0#16 ∨ (decCount r).toNat % 2 = 1
      rw [decCountNeg_iff]
      rcases hdue with hneg | heven
      · exact .inl (.inl hneg)
      · exact .inr (.inr (by omega))
    all_goals
      rename_i hother
      exact absurd (hq.symm.trans hother) (by decide)

/-- Settles O46: an idle cycle writes nothing, a beat leaves the record stuck (`SsBeatLeaves.stuck`), an edge of unit FB
does not move unit SS. -/
theorem stuckRecordNeverEnds : Obligations.StuckRecordNeverEnds := by
  unfold Obligations.StuckRecordNeverEnds
  intro s t hstuck h hquiet
  rcases step_edge h with ⟨hu, hedge, -⟩ | ⟨-, -, -, hss⟩
  · obtain ⟨hrst, hhit⟩ := hquiet hu
    cases hedge with
    | reset v b hd ht => rw [hd] at hrst; cases hrst
    | idle b hd ht => subst ht; exact hstuck
    | beat b hd hl ht =>
      unfold nextBeatIs at hd
      rw [hd] at hhit
      exact (ssBeatLeaves_of_exec (s := s.consume) ht).stuck (hhit rfl) hstuck
  · rwa [hss]

end Sys2Proof.Machine
end

section
/-! # Sync runs and records (spec/40_sync_stream_ops.md R110, R118, R120, spec/30_encoding.md R82)

The run counter after a beat is a function of the counter and the byte, and a SyncEvent stands at the port exactly at a
hit: counting the hits of a run of sync bytes is then division. A record is followed beat by beat through the
statements about the single operations. -/

namespace Sys2Proof.Machine

/-! ## Runs in parts -/

/-- A run that goes on, and the rest of it. -/
theorem steps_add_of_next {m : Nat} (n : Nat) {s t : State} (h : steps m s = .next t) :
    steps (m + n) s = steps n t := by
  induction m generalizing s with
  | zero => cases h; rw [Nat.zero_add]
  | succ m ih =>
    obtain ⟨s', hstep, hrest⟩ := steps_succ_eq_next h
    rw [Nat.add_right_comm, steps_succ_of_next hstep, ih hrest]

/-! ## The run counter -/

/-- The run counter after a beat, where it stands in its range. -/
theorem ssRun_of_run_eq {c : Config} {b : Beat} {r r' : SsRegs} (hrun : r'.run = (syncMatcher c b r).run)
    (hlt : ssRun c r < c.syncRunLen.toNat) :
    ssRun c r' = if ssHit c r b then 0 else if b.byte = c.syncByte then ssRun c r + 1 else 0 := by
  have hfit := syncRunLen_le_pow_runWidth c
  cases hhit : ssHit c r b
  case true =>
    exact ssRun_of_zero (by rw [hrun, syncMatcher_run, hhit]; simp)
  case false =>
    by_cases hbyte : b.byte = c.syncByte
    · have hne : ssRun c r + 1 ≠ c.syncRunLen.toNat := fun heq => by
        rw [(ssHit_iff c b r).mpr ⟨hbyte, heq⟩] at hhit
        cases hhit
      rw [ssRun, hrun, syncMatcher_run, hhit]
      simp only [ssMatch, hbyte, BEq.rfl, Bool.not_false, Bool.and_self, if_true, runOfNat_toNat, Nat.mod_mod,
        Bool.false_eq_true, if_false]
      exact Nat.mod_eq_of_lt (by omega)
    · rw [if_neg (by simp), if_neg hbyte]
      exact ssRun_of_zero (by rw [hrun, syncMatcher_run, ssMatch, beq_false_of_ne hbyte]; rfl)

/-! ## Sync hits -/

/-- The rows of the table with kind `SS_SYNC` are the sync hits. -/
theorem ssTable_kind_eq_one_iff {c : Config} {r : SsRegs} {b : Beat} {q : StateCode} {kind : BitVec 4} {esc : Bool}
    (h : ssTable c r b = some (q, kind, esc)) : kind = 1#4 ↔ ssHit c r b = true := by
  rw [ssTable_eq] at h
  cases hhit : ssHit c r b
  case true =>
    rw [hhit, if_pos rfl] at h
    cases h
    simp
  case false =>
    rw [hhit, if_neg (by simp)] at h
    simp only [Bool.false_eq_true, iff_false]
    repeat' split at h
    all_goals cases h
    all_goals decide

/-- A port adds one SyncEvent to the record when it shows kind `SS_SYNC`, and none otherwise. -/
theorem countP_isSync_toList (port : Option Event) :
    port.toList.countP Event.isSync = if portKind port = 1#4 then 1 else 0 := by
  match port with
  | none => rfl
  | some e => cases e <;> rfl

/-- A sync byte, in a state with an operation and a counter in its range: the counter goes on modulo `SYNC_RUN_LEN`, and
the hit that brings it to zero emits the one SyncEvent. -/
theorem step_syncByte {s : State} {b : Beat} (hl : s.cfg.runLenLegal = true) (hd : nextBeatIs s .ss b)
    (hq : s.ss.regs.state ≠ SsCode.unused) (hlt : ssRun s.cfg s.ss.regs < s.cfg.syncRunLen.toNat)
    (hbyte : b.byte = s.cfg.syncByte) :
    ∃ t, step s = .next t ∧ t.cfg = s.cfg ∧ t.input = s.input.tail ∧ t.ss.regs.state ≠ SsCode.unused ∧
      ssRun s.cfg t.ss.regs = (if ssRun s.cfg s.ss.regs + 1 = s.cfg.syncRunLen.toNat then 0
        else ssRun s.cfg s.ss.regs + 1) ∧
      t.ss.events.countP Event.isSync = s.ss.events.countP Event.isSync +
        (if ssRun s.cfg s.ss.regs + 1 = s.cfg.syncRunLen.toNat then 1 else 0) := by
  obtain ⟨q, kind, esc, hrow, hunused⟩ := ssTable_of_ne_unused s.cfg b hq
  have hmeets := step_meetsRow hl hd
  rw [hrow] at hmeets
  obtain ⟨t, ht, rfl, hkind, -⟩ := hmeets
  have hexec := (step_of_ssBeat hl hd).symm.trans ht
  have hu : (ssSelects s.cfg s.ss.regs b).unit = .ss := by
    simpa [selects] using selects_unit s ⟨.ss, false, true, b⟩
  have hhit : ssHit s.cfg s.ss.regs b = true ↔ ssRun s.cfg s.ss.regs + 1 = s.cfg.syncRunLen.toNat := by
    rw [ssHit_iff]
    exact and_iff_right hbyte
  obtain ⟨hcfg, hinput⟩ := stepKeepsTheConfiguration s t ht
  refine ⟨t, ht, hcfg, hinput, hunused, ?_, ?_⟩
  · have hleaves : SsBeatLeaves s.cfg b s.ss.regs t.ss.regs := ssBeatLeaves_of_exec (s := s.consume) hexec
    rw [ssRun_of_run_eq hleaves.run hlt, if_pos hbyte]
    exact if_congr hhit rfl rfl
  · have hevents := ((eventsOfAnEdge _ _ _ hexec).1 hu).1
    rw [hevents, List.countP_append, countP_isSync_toList, hkind]
    exact congrArg _ (if_congr ((ssTable_kind_eq_one_iff hrow).trans hhit) rfl rfl)

/-- Stepping a counter modulo `len` and counting its returns to zero is division with remainder. -/
theorem run_div_mod_step {len j j' : Nat} (m : Nat) (hj : j < len) (hj' : j' = if j + 1 = len then 0 else j + 1) :
    j' < len ∧ (j' + m) % len = (j + (m + 1)) % len ∧
      (if j + 1 = len then 1 else 0) + (j' + m) / len = (j + (m + 1)) / len := by
  subst hj'
  by_cases h : j + 1 = len
  · have hsum : j + (m + 1) = m + len := by omega
    simp only [h, if_true, hsum, Nat.zero_add, Nat.add_mod_right]
    refine ⟨by omega, trivial, ?_⟩
    rw [Nat.add_div_right _ (by omega), Nat.add_comm]
  · have hsum : j + 1 + m = j + (m + 1) := by omega
    simp only [h, if_false, hsum, Nat.zero_add]
    exact ⟨by omega, trivial, trivial⟩

/-- A run of sync bytes: the counter ends at the remainder, and the hits are the quotient. -/
theorem steps_syncBytes (bs : List Beat) {s : State} {rest : List Drive} (hl : s.cfg.runLenLegal = true)
    (hq : s.ss.regs.state ≠ SsCode.unused) (hlt : ssRun s.cfg s.ss.regs < s.cfg.syncRunLen.toNat)
    (hin : s.input = bs.map ssBeat ++ rest) (hsync : ∀ b ∈ bs, b.byte = s.cfg.syncByte) :
    ∃ t, steps bs.length s = .next t ∧ t.input = rest ∧
      ssRun t.cfg t.ss.regs = (ssRun s.cfg s.ss.regs + bs.length) % s.cfg.syncRunLen.toNat ∧
      t.ss.events.countP Event.isSync = s.ss.events.countP Event.isSync +
        (ssRun s.cfg s.ss.regs + bs.length) / s.cfg.syncRunLen.toNat := by
  induction bs generalizing s with
  | nil =>
    exact ⟨s, rfl, hin, (Nat.mod_eq_of_lt hlt).symm, by simp [Nat.div_eq_of_lt hlt]⟩
  | cons b bs ih =>
    have hd : nextBeatIs s .ss b := nextDrive_of_input hin
    obtain ⟨s', hstep, hcfg, hinput, hq', hrun, hcount⟩ :=
      step_syncByte hl hd hq hlt (hsync b List.mem_cons_self)
    obtain ⟨hlt', hmod, hdiv⟩ := run_div_mod_step bs.length hlt hrun
    rw [← hcfg] at hl hlt' hsync hmod hdiv
    have hin' : s'.input = bs.map ssBeat ++ rest := by rw [hinput, hin]; rfl
    obtain ⟨t, ht, htin, htrun, htcount⟩ :=
      ih hl hq' hlt' hin' fun b' hb' => hsync b' (List.mem_cons_of_mem _ hb')
    refine ⟨t, by rw [List.length_cons, steps_succ_of_next hstep, ht], htin, ?_, ?_⟩
    · rw [htrun, hmod, hcfg, List.length_cons]
    · rw [htcount, hcount, Nat.add_assoc, ← hcfg, hdiv, hcfg, List.length_cons]

/-- Settles O48: from zero, `k * SYNC_RUN_LEN` bytes leave remainder zero and quotient `k`. -/
theorem syncRunContainsItsHits : Obligations.SyncRunContainsItsHits := by
  unfold Obligations.SyncRunContainsItsHits
  intro s bs rest k hl hrun hq hin hlen hsync
  have hpos : 0 < s.cfg.syncRunLen.toNat :=
    Nat.pos_of_ne_zero (by simpa [Config.runLenLegal, BitVec.toNat_eq] using hl)
  obtain ⟨t, ht, htin, htrun, htcount⟩ := steps_syncBytes bs hl hq (by omega) hin hsync
  rw [hrun, hlen, Nat.zero_add] at htrun htcount
  exact ⟨t, ht, htin, by rw [htrun, Nat.mul_mod_left], by rw [htcount, Nat.mul_div_cancel _ hpos]⟩

/-! ## A record in progress -/

/-- Unit SS stands before the beats `bs` of a record in which no beat is a sync hit, with `evs` and `dgs` in its
records; unit FB holds `f`, and `rest` is driven after the record. -/
structure OnRecord (c : Config) (f : FbUnit) (rest : List Drive) (evs : List Event) (dgs : List Diag)
    (bs : List Beat) (s : State) : Prop where
  cfg : s.cfg = c
  legal : c.runLenLegal = true
  fb : s.fb = f
  events : s.ss.events = evs
  diags : s.ss.diags = dgs
  input : s.input = bs.map ssBeat ++ rest
  run_lt : ssRun c s.ss.regs < c.syncRunLen.toNat
  noHit : NoSyncHit c (ssRun c s.ss.regs) bs

section Record

variable {c : Config} {f : FbUnit} {rest : List Drive} {evs : List Event} {dgs : List Diag} {b : Beat}
  {bs : List Beat} {s : State}

/-- The next beat is no sync hit. -/
theorem OnRecord.ssHit_eq_false (h : OnRecord c f rest evs dgs (b :: bs) s) : ssHit s.cfg s.ss.regs b = false := by
  rw [Bool.eq_false_iff, ne_eq, h.cfg, ssHit_iff]
  rintro ⟨hbyte, hlen⟩
  exact ((noSyncHit_cons ..).mp h.noHit).1 hbyte hlen

/-- A beat of the record, by what is known of the operation it selects. -/
theorem OnRecord.step {i : Instr} {r : SsRegs} {ev : Option Event} {dg : Option Diag}
    (h : OnRecord c f rest evs dgs (b :: bs) s) (hsel : ssSelects s.cfg s.ss.regs b = i)
    (hop : ∃ t, exec i s.consume = .next t ∧ SsBeatDone s.consume t b r ev dg) :
    ∃ t, Machine.step s = .next t ∧ OnRecord c f rest (evs ++ ev.toList) (dgs ++ dg.toList) bs t ∧
      t.ss.regs = { r with run := t.ss.regs.run, syncStart := t.ss.regs.syncStart } := by
  obtain ⟨t, hexec, ⟨hcfg, hfb, hinput⟩, -, hregs, ⟨-, -, hevents, hdiags⟩⟩ := hop
  have hhit := h.ssHit_eq_false
  subst hsel
  have hstep : Machine.step s = .next t :=
    (step_of_ssBeat (by rw [h.cfg, h.legal]) (nextDrive_of_input h.input)).trans hexec
  have hrun := ssRun_of_run_eq (ssBeatLeaves_of_exec (s := s.consume) hexec).run (h.cfg ▸ h.run_lt)
  rw [State.consume_cfg, State.consume_ss, hhit, if_neg (by simp), h.cfg] at hrun
  obtain ⟨hnext, hrest⟩ := (noSyncHit_cons ..).mp h.noHit
  refine ⟨t, hstep, ⟨?_, h.legal, ?_, ?_, ?_, ?_, ?_, ?_⟩, hregs⟩
  · rw [hcfg, State.consume_cfg, h.cfg]
  · rw [hfb, State.consume_fb, h.fb]
  · rw [hevents, State.consume_ss, h.events]
  · rw [hdiags, State.consume_ss, h.diags]
  · rw [hinput, State.consume_input, h.input]; rfl
  · have hlt := h.run_lt
    rw [hrun]
    split
    next hbyte =>
      have := hnext hbyte
      omega
    next => omega
  · rwa [hrun]

end Record

/-- What a low-byte operation stored is the low byte of the word. -/
theorem wordOf_ofNat (lo hi : Byte) : wordOf (BitVec.ofNat 16 lo.toNat).toNat hi = wordOf lo.toNat hi := by
  have := lo.isLt
  rw [BitVec.toNat_ofNat, Nat.mod_eq_of_lt (by omega)]

/-- The word as a number. -/
theorem wordOf_toNat (lo hi : Byte) : (wordOf lo.toNat hi).toNat = lo.toNat + 256 * hi.toNat := by
  have h1 := lo.isLt
  have h2 := hi.isLt
  rw [wordOf, BitVec.toNat_ofNat]
  omega

section Fields

variable {c : Config} {f : FbUnit} {rest : List Drive} {evs : List Event} {dgs : List Diag} {lo hi : Beat}
  {bs : List Beat} {s : State}

/-- The address field of a record that does not escape. -/
theorem OnRecord.address_field (h : OnRecord c f rest evs dgs (lo :: hi :: bs) s)
    (hq : s.ss.regs.state = SsCode.addrLow) (hesc : wordOf lo.byte.toNat hi.byte ≠ c.escAddr) :
    ∃ t, steps 2 s = .next t ∧
      OnRecord c f rest (evs ++ [.ssAddr lo.ss hi.es (wordOf lo.byte.toNat hi.byte) false]) dgs bs t ∧
      t.ss.regs.state = SsCode.countLow ∧ t.ss.regs.address = wordOf lo.byte.toNat hi.byte := by
  have hhit := h.ssHit_eq_false
  obtain ⟨t1, hstep1, h1, hregs1⟩ :=
    h.step (i := .ssAddrLo lo) (by simp +decide [ssSelects, hhit, hq]) (ssAddrLoTakesTheLowByte lo s.consume)
  have hhit1 := h1.ssHit_eq_false
  have hq1 : t1.ss.regs.state = SsCode.addrHigh := by rw [hregs1]
  have haddr1 : wordOf t1.ss.regs.address.toNat hi.byte = wordOf lo.byte.toNat hi.byte := by
    rw [hregs1]; exact wordOf_ofNat ..
  have hstart1 : t1.ss.regs.fieldStart = lo.ss := by rw [hregs1]
  obtain ⟨t', hexec, -, hdone⟩ := ssAddrHiCombinesOrEscapes hi t1.consume
  have hdone' := hdone (by rw [State.consume_ss, haddr1, State.consume_cfg, h1.cfg]; exact hesc)
  obtain ⟨t2, hstep2, h2, hregs2⟩ :=
    h1.step (i := .ssAddrHi hi) (by simp +decide [ssSelects, hhit1, hq1]) ⟨t', hexec, hdone'⟩
  refine ⟨t2, by rw [steps_succ_of_next hstep1, steps_succ_of_next hstep2]; rfl, ?_, by rw [hregs2], ?_⟩
  · simpa [haddr1, hstart1] using h2
  · rw [hregs2]; exact haddr1

/-- The count field of a record. -/
theorem OnRecord.count_field (h : OnRecord c f rest evs dgs (lo :: hi :: bs) s)
    (hq : s.ss.regs.state = SsCode.countLow) :
    ∃ t, steps 2 s = .next t ∧
      OnRecord c f rest (evs ++ [.ssCount lo.ss hi.es (wordOf lo.byte.toNat hi.byte)]) dgs bs t ∧
      t.ss.regs.state = SsCode.dataLow ∧ t.ss.regs.countNeg = false ∧
      t.ss.regs.count = wordOf lo.byte.toNat hi.byte ∧ t.ss.regs.address = s.ss.regs.address := by
  have hhit := h.ssHit_eq_false
  obtain ⟨t1, hstep1, h1, hregs1⟩ :=
    h.step (i := .ssCntLo lo) (by simp +decide [ssSelects, hhit, hq]) (ssCntLoTakesTheLowByte lo s.consume)
  have hhit1 := h1.ssHit_eq_false
  have hq1 : t1.ss.regs.state = SsCode.countHigh := by rw [hregs1]
  have hneg1 : t1.ss.regs.countNeg = false := by rw [hregs1]
  have hcount1 : wordOf t1.ss.regs.count.toNat hi.byte = wordOf lo.byte.toNat hi.byte := by
    rw [hregs1]; exact wordOf_ofNat ..
  have hstart1 : t1.ss.regs.fieldStart = lo.ss := by rw [hregs1]
  have haddr1 : t1.ss.regs.address = s.ss.regs.address := by rw [hregs1]; rfl
  obtain ⟨t2, hstep2, h2, hregs2⟩ :=
    h1.step (i := .ssCntHi hi) (by simp +decide [ssSelects, hhit1, hq1]) (ssCntHiCombinesTheCount hi t1.consume)
  refine ⟨t2, by rw [steps_succ_of_next hstep1, steps_succ_of_next hstep2]; rfl, ?_, by rw [hregs2], ?_, ?_, ?_⟩
  · simpa [hcount1, hstart1] using h2
  · rw [hregs2]; exact hneg1
  · rw [hregs2]; exact hcount1
  · rw [hregs2]; exact haddr1

/-- A data word of a record whose countdown stands at an even number of bytes, two or more. -/
theorem OnRecord.data_word {k : Nat} (h : OnRecord c f rest evs dgs (lo :: hi :: bs) s)
    (hq : s.ss.regs.state = SsCode.dataLow) (hneg : s.ss.regs.countNeg = false)
    (hcount : s.ss.regs.count.toNat = 2 * (k + 1)) :
    ∃ t, steps 2 s = .next t ∧
      OnRecord c f rest (evs ++ [.ssWrite lo.ss hi.es s.ss.regs.address (wordOf lo.byte.toNat hi.byte)]) dgs bs t ∧
      t.ss.regs.state = (if k = 0 then SsCode.addrLow else SsCode.dataLow) ∧ t.ss.regs.countNeg = false ∧
      t.ss.regs.count.toNat = 2 * k ∧ t.ss.regs.address = s.ss.regs.address + 2#16 := by
  have hhit := h.ssHit_eq_false
  have hlt := s.ss.regs.count.isLt
  obtain ⟨t1, hstep1, h1, hregs1⟩ :=
    h.step (i := .ssDataLo lo) (by simp +decide [ssSelects, hhit, hq]) (ssDataLoTakesTheLowByte lo s.consume)
  have hhit1 := h1.ssHit_eq_false
  have hq1 : t1.ss.regs.state = SsCode.dataHigh := by rw [hregs1]
  have hneg1 : t1.ss.regs.countNeg = false := by
    rw [hregs1]
    simp [hneg, hcount]
  have hcount1 : t1.ss.regs.count.toNat = 2 * k + 1 := by
    rw [hregs1]
    simp only [State.consume_ss, BitVec.toNat_ofNat]
    omega
  have hvalue1 : wordOf t1.ss.regs.value.toNat hi.byte = wordOf lo.byte.toNat hi.byte := by
    rw [hregs1]; exact wordOf_ofNat ..
  have hstart1 : t1.ss.regs.fieldStart = lo.ss := by rw [hregs1]
  have haddr1 : t1.ss.regs.address = s.ss.regs.address := by rw [hregs1]; rfl
  obtain ⟨t2, hstep2, h2, hregs2⟩ :=
    h1.step (i := .ssDataHi hi) (by simp +decide [ssSelects, hhit1, hq1]) (ssDataHiEmitsTheWriteRecord hi t1.consume)
  refine ⟨t2, by rw [steps_succ_of_next hstep1, steps_succ_of_next hstep2]; rfl, ?_, ?_, ?_, ?_, ?_⟩
  · simpa [hvalue1, hstart1, haddr1, hcount, hcount1] using h2
  · rw [hregs2]
    simp [hneg1, hcount1]
  · rw [hregs2]
    simp [hneg1, hcount1]
  · rw [hregs2]
    simp only [State.consume_ss, BitVec.toNat_ofNat]
    omega
  · rw [hregs2, ← haddr1]
    exact address_add_two _

end Fields

/-- The data words of a record, down to the last. -/
theorem OnRecord.data_words {c : Config} {f : FbUnit} {rest : List Drive} {dgs : List Diag} (ws : List (Beat × Beat))
    (hne : ws ≠ []) {evs : List Event} {s : State} (h : OnRecord c f rest evs dgs (recordBeats ws) s)
    (hq : s.ss.regs.state = SsCode.dataLow) (hneg : s.ss.regs.countNeg = false)
    (hcount : s.ss.regs.count.toNat = 2 * ws.length) :
    ∃ t, steps (2 * ws.length) s = .next t ∧
      OnRecord c f rest (evs ++ recordWrites s.ss.regs.address ws) dgs [] t ∧
      t.ss.regs.state = SsCode.addrLow ∧ t.ss.regs.count = 0#16 ∧ t.ss.regs.countNeg = false ∧
      t.ss.regs.address = s.ss.regs.address + BitVec.ofNat 16 (2 * ws.length) := by
  induction ws generalizing evs s with
  | nil => exact absurd rfl hne
  | cons w ws ih =>
    obtain ⟨lo, hi⟩ := w
    obtain ⟨t, hsteps, ht, htq, htneg, htcount, htaddr⟩ := OnRecord.data_word (k := ws.length) h hq hneg hcount
    have hlen : 2 * ((lo, hi) :: ws).length = 2 + 2 * ws.length := by rw [List.length_cons]; omega
    rw [hlen, steps_add_of_next _ hsteps]
    by_cases hlast : ws = []
    · subst hlast
      refine ⟨t, rfl, ht, by simpa using htq, ?_, htneg, htaddr⟩
      rw [BitVec.toNat_eq, htcount]
      rfl
    · rw [if_neg (by simpa using hlast)] at htq
      obtain ⟨u, hu, huOn, huq, hucount, huneg, huaddr⟩ := ih hlast ht htq htneg htcount
      refine ⟨u, hu, ?_, huq, hucount, huneg, ?_⟩
      · simpa [recordWrites, htaddr] using huOn
      · rw [huaddr, htaddr, BitVec.add_assoc, BitVec.ofNat_add]

/-- Settles O47: the two fields and the data words, one after the other. -/
theorem wellFormedRecordYieldsItsWrites : Obligations.WellFormedRecordYieldsItsWrites := by
  unfold Obligations.WellFormedRecordYieldsItsWrites
  intro s a0 a1 c0 c1 ws rest hl hq hin hlt hnohit hesc hne hlen
  have h0 : OnRecord s.cfg s.fb rest s.ss.events s.ss.diags (a0 :: a1 :: c0 :: c1 :: recordBeats ws) s :=
    ⟨rfl, hl, rfl, rfl, rfl, hin, hlt, hnohit⟩
  obtain ⟨t1, hs1, h1, hq1, haddr1⟩ := h0.address_field hq hesc
  obtain ⟨t2, hs2, h2, hq2, hneg2, hcount2, haddr2⟩ := h1.count_field hq1
  have hcount : t2.ss.regs.count.toNat = 2 * ws.length := by rw [hcount2, wordOf_toNat, hlen]
  obtain ⟨t, hs, ht, htq, htcount, htneg, htaddr⟩ := OnRecord.data_words ws hne h2 hq2 hneg2 hcount
  rw [haddr2, haddr1] at ht htaddr
  refine ⟨t, ?_, ht.input, ht.cfg, ht.fb, htq, htcount, htneg, htaddr, ?_, ht.diags⟩
  · rw [show 4 + 2 * ws.length = 2 + (2 + 2 * ws.length) by omega, steps_add_of_next _ hs1,
      steps_add_of_next _ hs2, hs]
  · rw [ht.events]
    simp

end Sys2Proof.Machine
end

section
/-! # Frames on the bus (spec/30_encoding.md R84, spec/41_framed_bus_ops.md R143 to R148)

A frame is followed beat by beat through the statements about the single operations; only its address byte differs
between a frame that starts in `SYNC` and one that starts after a resetting gap. -/

namespace Sys2Proof.Machine

/-! ## A frame in progress -/

/-- Unit FB stands before the beats `bs` of a frame none of which follows a resetting gap, with `evs` and `dgs` in its
records; unit SS holds `x`, and `rest` is driven after the frame. -/
structure OnFrame (c : Config) (x : SsUnit) (rest : List Drive) (evs : List Event) (dgs : List Diag)
    (bs : List Beat) (s : State) : Prop where
  cfg : s.cfg = c
  ss : s.ss = x
  events : s.fb.events = evs
  diags : s.fb.diags = dgs
  input : s.input = bs.map fbBeat ++ rest
  noGap : NoResettingGap c s.fb.regs.lastValid s.fb.regs.lastEnd bs

/-- The parts of a frame that its later beats do not write. -/
structure SameFields (r r' : FbRegs) : Prop where
  address : r'.address = r.address
  msgType : r'.msgType = r.msgType
  dataLength : r'.dataLength = r.dataLength
  frameStart : r'.frameStart = r.frameStart

theorem SameFields.trans {r r' r'' : FbRegs} (h : SameFields r r') (h' : SameFields r' r'') : SameFields r r'' where
  address := h'.address.trans h.address
  msgType := h'.msgType.trans h.msgType
  dataLength := h'.dataLength.trans h.dataLength
  frameStart := h'.frameStart.trans h.frameStart

section Frame

variable {c : Config} {x : SsUnit} {rest : List Drive} {evs : List Event} {dgs : List Diag} {b : Beat}
  {bs : List Beat} {s : State}

/-- The next beat does not follow a resetting gap. -/
theorem OnFrame.fbG_eq_false (h : OnFrame c x rest evs dgs (b :: bs) s) : fbG s.cfg s.fb.regs b = false := by
  rw [Bool.eq_false_iff, ne_eq, h.cfg, fbG_iff]
  rintro ⟨hvalid, hgap⟩
  have := h.noGap.1 hvalid
  omega

/-- An edge of unit FB, by what is known of the operation its beat selects, leads into the rest of a frame. -/
theorem onFrame_of_edge {i : Instr} {t : State} {r : FbRegs} {gap ev : Option Event} {dg : Option Diag}
    (hin : s.input = (b :: bs).map fbBeat ++ rest) (hexec : exec i s.consume = .next t)
    (hdone : FbEdgeDone s.consume t r gap ev dg) (hsel : fbSelects s.cfg s.fb.regs b = i)
    (hend : r.lastEnd = b.es) (hvalid : r.lastValid = true) (hgap : NoResettingGap s.cfg true b.es bs) :
    step s = .next t ∧
      OnFrame s.cfg s.ss rest (s.fb.events ++ gap.toList ++ ev.toList) (s.fb.diags ++ dg.toList) bs t := by
  obtain ⟨⟨hcfg, hss, hinput⟩, hregs, ⟨-, -, -, hevents, hdiags⟩⟩ := hdone
  subst hsel
  refine ⟨(step_of_fbBeat (nextDrive_of_input hin)).trans hexec, hcfg, hss, hevents, hdiags, ?_, ?_⟩
  · rw [hinput, State.consume_input, hin]; rfl
  · rwa [hregs, hend, hvalid]

/-- A beat of the frame, by what is known of the operation it selects. -/
theorem OnFrame.step {i : Instr} {t : State} {r : FbRegs} {ev : Option Event}
    (h : OnFrame c x rest evs dgs (b :: bs) s) (hexec : exec i s.consume = .next t)
    (hdone : FbEdgeDone s.consume t r none ev none) (hsel : fbSelects s.cfg s.fb.regs b = i)
    (hend : r.lastEnd = b.es) (hvalid : r.lastValid = true) :
    Machine.step s = .next t ∧ OnFrame c x rest (evs ++ ev.toList) dgs bs t := by
  have hedge := onFrame_of_edge h.input hexec hdone hsel hend hvalid (h.cfg ▸ h.noGap.2)
  simpa only [h.cfg, h.ss, h.events, h.diags, Option.toList_none, List.append_nil] using hedge

/-- The message-type byte. -/
theorem OnFrame.msgType_byte (h : OnFrame c x rest evs dgs (b :: bs) s) (hq : s.fb.regs.state = FbCode.waitAddress) :
    ∃ t, Machine.step s = .next t ∧ OnFrame c x rest (evs ++ [.fbMsgType b.ss b.es b.byte]) dgs bs t ∧
      t.fb.regs.state = FbCode.waitMsgType ∧ t.fb.regs.plCount = s.fb.regs.plCount ∧
      SameFields { s.fb.regs with msgType := b.byte } t.fb.regs := by
  have hg := h.fbG_eq_false
  obtain ⟨-, t, hexec, hdone, -⟩ := fbMsgTypeTakesTheMessageType b s.consume
  obtain ⟨hstep, ht⟩ := h.step hexec hdone (by simp +decide [fbSelects, hg, hq]) rfl rfl
  obtain ⟨-, hregs, -⟩ := hdone
  exact ⟨t, hstep, ht, by rw [hregs], by rw [hregs]; rfl, by rw [hregs]; exact ⟨rfl, rfl, rfl, rfl⟩⟩

/-- The data-length byte. -/
theorem OnFrame.dataLen_byte (h : OnFrame c x rest evs dgs (b :: bs) s) (hq : s.fb.regs.state = FbCode.waitMsgType) :
    ∃ t, Machine.step s = .next t ∧ OnFrame c x rest (evs ++ [.fbDataLen b.ss b.es b.byte]) dgs bs t ∧
      t.fb.regs.state = (if b.byte.toNat = 0 then FbCode.waitChecksum else FbCode.waitDataLength) ∧
      t.fb.regs.plCount = s.fb.regs.plCount ∧ SameFields { s.fb.regs with dataLength := b.byte } t.fb.regs := by
  have hg := h.fbG_eq_false
  obtain ⟨t, hexec, hdone, -⟩ := fbDataLenTakesTheLength b s.consume
  obtain ⟨hstep, ht⟩ := h.step hexec hdone (by simp +decide [fbSelects, hg, hq]) rfl rfl
  obtain ⟨-, hregs, -⟩ := hdone
  exact ⟨t, hstep, ht, by rw [hregs], by rw [hregs]; rfl, by rw [hregs]; exact ⟨rfl, rfl, rfl, rfl⟩⟩

/-- The checksum byte: the frame event with the payload, and the state that depends on the address alone. -/
theorem OnFrame.checksum_byte (h : OnFrame c x rest evs dgs (b :: bs) s)
    (hq : s.fb.regs.state = FbCode.waitChecksum) :
    ∃ t, Machine.step s = .next t ∧
      OnFrame c x rest
        (evs ++ [.fbFrame s.fb.regs.frameStart b.es s.fb.regs.address s.fb.regs.msgType s.fb.regs.dataLength
          (s.fb.pl.readFirst s.fb.regs.dataLength.toNat) b.byte]) dgs bs t ∧
      t.fb.regs.state = if s.fb.regs.address = 0#8 then FbCode.sync else FbCode.waitChecksum := by
  have hg := h.fbG_eq_false
  obtain ⟨t, hexec, hdone, -⟩ := fbChecksumEmitsTheFrame b s.consume
  obtain ⟨hstep, ht⟩ := h.step hexec hdone (by simp +decide [fbSelects, hg, hq]) rfl rfl
  obtain ⟨-, hregs, -⟩ := hdone
  refine ⟨t, hstep, ht, ?_⟩
  rw [hregs]
  exact if_congr (by rw [BitVec.toNat_eq]; rfl) rfl hq

/-! ## The payload -/

/-- One entry more of the buffer. -/
theorem Memory.readFirst_succ (m : Memory) (n : Nat) : m.readFirst (n + 1) = m.readFirst n ++ [m.read n] := by
  simp [Memory.readFirst, List.range_succ]

/-- Buffers that read the same below `n` have the same first `n` entries. -/
theorem Memory.readFirst_congr {m m' : Memory} {n : Nat} (h : ∀ i < n, m'.read i = m.read i) :
    m'.readFirst n = m.readFirst n :=
  List.map_congr_left fun i hi => h i (List.mem_range.mp hi)

/-- Where the payload starts: at the byte that finds none appended before it. -/
def payloadStart (r : FbRegs) (b : Beat) : Offset := if r.plCount.toNat = 0 then b.ss else r.plStart

/-- One byte of the payload. -/
theorem OnFrame.payload_byte (h : OnFrame c x rest evs dgs (b :: bs) s)
    (hq : s.fb.regs.state = FbCode.waitDataLength) (hroom : s.fb.regs.plCount.toNat < s.fb.regs.dataLength.toNat) :
    ∃ t, Machine.step s = .next t ∧
      OnFrame c x rest
        (evs ++ (if s.fb.regs.plCount.toNat + 1 = s.fb.regs.dataLength.toNat then
          [.fbPayload (payloadStart s.fb.regs b) b.es s.fb.regs.dataLength] else [])) dgs bs t ∧
      t.fb.regs.state = (if s.fb.regs.plCount.toNat + 1 = s.fb.regs.dataLength.toNat then FbCode.waitChecksum
        else FbCode.waitDataLength) ∧
      t.fb.regs.plCount.toNat = s.fb.regs.plCount.toNat + 1 ∧ t.fb.regs.plStart = payloadStart s.fb.regs b ∧
      SameFields s.fb.regs t.fb.regs ∧
      t.fb.pl.readFirst (s.fb.regs.plCount.toNat + 1) = s.fb.pl.readFirst s.fb.regs.plCount.toNat ++ [b.byte] := by
  have hg := h.fbG_eq_false
  have hlen := s.fb.regs.dataLength.isLt
  obtain ⟨t, hexec, happend, -⟩ := fbPayloadAppendsTheByte b s.consume
  obtain ⟨hdone, hread, hother⟩ := happend hroom
  obtain ⟨hstep, ht⟩ := h.step hexec hdone (by simp +decide [fbSelects, hg, hq]) rfl rfl
  obtain ⟨-, hregs, -⟩ := hdone
  refine ⟨t, hstep, ?_, ?_, ?_, by rw [hregs]; rfl, by rw [hregs]; exact ⟨rfl, rfl, rfl, rfl⟩, ?_⟩
  · rw [apply_ite Option.toList] at ht
    exact ht
  · rw [hregs]
    exact if_congr Iff.rfl rfl hq
  · rw [hregs]
    simp only [State.consume_fb, BitVec.toNat_ofNat]
    omega
  · rw [State.consume_fb] at hread hother
    rw [Memory.readFirst_succ, hread, Memory.readFirst_congr fun i hi => hother i (by omega)]

end Frame

/-- The payload, from any byte of it to its last. -/
theorem OnFrame.payload_bytes {c : Config} {x : SsUnit} {rest : List Drive} {dgs : List Diag} {bs : List Beat}
    (ps : List Beat) {b : Beat} {evs : List Event} {s : State} (h : OnFrame c x rest evs dgs (b :: ps ++ bs) s)
    (hq : s.fb.regs.state = FbCode.waitDataLength)
    (hlen : s.fb.regs.plCount.toNat + (ps.length + 1) = s.fb.regs.dataLength.toNat) :
    ∃ t, steps (ps.length + 1) s = .next t ∧
      OnFrame c x rest
        (evs ++ [.fbPayload (payloadStart s.fb.regs b) ((b :: ps).getLast (List.cons_ne_nil b ps)).es
          s.fb.regs.dataLength]) dgs bs t ∧
      t.fb.regs.state = FbCode.waitChecksum ∧ SameFields s.fb.regs t.fb.regs ∧
      t.fb.pl.readFirst s.fb.regs.dataLength.toNat =
        s.fb.pl.readFirst s.fb.regs.plCount.toNat ++ (b :: ps).map Beat.byte := by
  induction ps generalizing b evs s with
  | nil =>
    obtain ⟨t, hstep, ht, htq, -, -, hfields, hread⟩ := OnFrame.payload_byte h hq (by omega)
    have hlast : s.fb.regs.plCount.toNat + 1 = s.fb.regs.dataLength.toNat := hlen
    rw [if_pos hlast] at ht htq
    rw [hlast] at hread
    exact ⟨t, steps_succ_of_next hstep, ht, htq, hfields, hread⟩
  | cons b' ps ih =>
    rw [List.length_cons] at hlen
    obtain ⟨t, hstep, ht, htq, htcount, htstart, hfields, hread⟩ := OnFrame.payload_byte h hq (by omega)
    rw [if_neg (by omega), List.append_nil] at ht
    rw [if_neg (by omega)] at htq
    have hstart : payloadStart t.fb.regs b' = payloadStart s.fb.regs b := by
      rw [payloadStart, htcount, if_neg (by omega), htstart]
    obtain ⟨u, hu, huOn, huq, hufields, huread⟩ := ih ht htq (by rw [hfields.dataLength, htcount]; omega)
    rw [hfields.dataLength, hstart] at huOn
    rw [hfields.dataLength, htcount, hread] at huread
    exact ⟨u, (steps_succ_of_next hstep).trans hu, huOn, huq, hfields.trans hufields, by rw [huread]; simp⟩

/-! ## Whole frames -/

/-- The payload-span event of a payload that is not empty. -/
theorem payloadSpan_cons (length : Byte) (b : Beat) (ps : List Beat) :
    payloadSpan length (b :: ps) = [.fbPayload b.ss ((b :: ps).getLast (List.cons_ne_nil b ps)).es length] := by
  simp [payloadSpan, List.getLast?_eq_some_getLast]

/-- The payload and the state after it, empty or not: the buffer then reads as the payload. -/
theorem OnFrame.payload {c : Config} {x : SsUnit} {rest : List Drive} {dgs : List Diag} {evs : List Event}
    {ps bs : List Beat} {s : State} (h : OnFrame c x rest evs dgs (ps ++ bs) s) (hcount : s.fb.regs.plCount = 0#8)
    (hlen : ps.length = s.fb.regs.dataLength.toNat)
    (hq : s.fb.regs.state = if s.fb.regs.dataLength.toNat = 0 then FbCode.waitChecksum else FbCode.waitDataLength) :
    ∃ t, steps ps.length s = .next t ∧
      OnFrame c x rest (evs ++ payloadSpan s.fb.regs.dataLength ps) dgs bs t ∧
      t.fb.regs.state = FbCode.waitChecksum ∧ SameFields s.fb.regs t.fb.regs ∧
      t.fb.pl.readFirst s.fb.regs.dataLength.toNat = ps.map Beat.byte := by
  match ps with
  | [] =>
    rw [List.length_nil] at hlen
    rw [if_pos hlen.symm] at hq
    exact ⟨s, rfl, by simpa [payloadSpan] using h, hq, ⟨rfl, rfl, rfl, rfl⟩, by rw [← hlen]; rfl⟩
  | b :: ps =>
    rw [List.length_cons] at hlen
    rw [if_neg (by omega)] at hq
    have hzero : s.fb.regs.plCount.toNat = 0 := by rw [hcount]; rfl
    obtain ⟨t, hs, ht, htq, hfields, hread⟩ := OnFrame.payload_bytes ps h hq (by omega)
    rw [payloadStart, if_pos hzero, ← payloadSpan_cons] at ht
    rw [hzero] at hread
    exact ⟨t, hs, ht, htq, hfields, hread⟩

/-- A frame from its message-type byte on. -/
theorem OnFrame.after_address {c : Config} {x : SsUnit} {rest : List Drive} {dgs : List Diag} {evs : List Event}
    {m n ck : Beat} {ps : List Beat} {s : State} (h : OnFrame c x rest evs dgs (m :: n :: (ps ++ [ck])) s)
    (hq : s.fb.regs.state = FbCode.waitAddress) (hcount : s.fb.regs.plCount = 0#8)
    (hlen : ps.length = n.byte.toNat) :
    ∃ t, steps (3 + ps.length) s = .next t ∧
      OnFrame c x rest
        (evs ++ [.fbMsgType m.ss m.es m.byte, .fbDataLen n.ss n.es n.byte] ++ payloadSpan n.byte ps ++
          [.fbFrame s.fb.regs.frameStart ck.es s.fb.regs.address m.byte n.byte (ps.map Beat.byte) ck.byte])
        dgs [] t ∧
      t.fb.regs.state = if s.fb.regs.address = 0#8 then FbCode.sync else FbCode.waitChecksum := by
  obtain ⟨t1, hstep1, h1, hq1, hcount1, hfields1⟩ := h.msgType_byte hq
  obtain ⟨t2, hstep2, h2, hq2, hcount2, hfields2⟩ := h1.dataLen_byte hq1
  have haddress : t2.fb.regs.address = s.fb.regs.address := hfields2.address.trans hfields1.address
  have hmsgType : t2.fb.regs.msgType = m.byte := hfields2.msgType.trans hfields1.msgType
  have hlength : t2.fb.regs.dataLength = n.byte := hfields2.dataLength
  have hstart : t2.fb.regs.frameStart = s.fb.regs.frameStart := hfields2.frameStart.trans hfields1.frameStart
  obtain ⟨t3, hs3, h3, hq3, hfields3, hread3⟩ :=
    OnFrame.payload h2 (by rw [hcount2, hcount1, hcount]) (by rw [hlength, hlen]) (by rw [hlength, hq2])
  obtain ⟨t4, hstep4, h4, hq4⟩ := h3.checksum_byte hq3
  rw [hfields3.dataLength, hread3, hfields3.address, hfields3.msgType, hfields3.frameStart, haddress, hmsgType,
    hlength, hstart] at h4
  refine ⟨t4, ?_, by simpa using h4, by rw [hq4, hfields3.address, haddress]⟩
  rw [show 3 + ps.length = ps.length + 1 + 1 + 1 by omega, steps_succ_of_next hstep1, steps_succ_of_next hstep2,
    steps_add_of_next 1 hs3]
  exact steps_succ_of_next hstep4

/-- Settles O49: the address byte in `SYNC`, then the rest of the frame (`OnFrame.after_address`). -/
theorem busFrameRoundTrip : Obligations.BusFrameRoundTrip := by
  unfold Obligations.BusFrameRoundTrip
  intro s a m n ps ck rest hq hcount hin hgap hlen
  have h0 : OnFrame s.cfg s.ss rest s.fb.events s.fb.diags (a :: m :: n :: (ps ++ [ck])) s :=
    ⟨rfl, rfl, rfl, rfl, hin, hgap⟩
  have hg := h0.fbG_eq_false
  obtain ⟨-, t1, hexec, hdone, -⟩ := fbAddrTakesTheAddress a s.consume
  obtain ⟨hstep, h1⟩ := h0.step hexec hdone (by simp +decide [fbSelects, hg, hq]) rfl rfl
  obtain ⟨-, hregs, -⟩ := hdone
  obtain ⟨t, hs, ht, htq⟩ := h1.after_address (by rw [hregs]) (by rw [hregs]; exact hcount) hlen
  simp only [hregs] at ht htq
  refine ⟨t, ?_, ht.input, ht.cfg, ht.ss, htq, ?_, ht.diags⟩
  · rw [show 4 + ps.length = 3 + ps.length + 1 by omega, steps_succ_of_next hstep, hs]
  · rw [ht.events]; simp

/-- Settles O50: the address byte after a resetting gap, then the rest of the frame (`OnFrame.after_address`). -/
theorem busFrameAfterAResettingGap : Obligations.BusFrameAfterAResettingGap := by
  unfold Obligations.BusFrameAfterAResettingGap
  intro s a m n ps ck rest hin hvalid hreset hgap hlen
  have hg : fbG s.cfg s.fb.regs a = true := (fbG_iff ..).mpr ⟨hvalid, hreset⟩
  obtain ⟨-, t1, hexec, hdone, -⟩ := fbGapAddrResetsThenTakesTheAddress s.fb.regs.state a s.consume
  obtain ⟨hstep, h1⟩ := onFrame_of_edge hin hexec hdone (by rw [fbSelects, hg, if_pos rfl]) rfl rfl hgap
  obtain ⟨-, hregs, -⟩ := hdone
  obtain ⟨t, hs, ht, htq⟩ := h1.after_address (by rw [hregs]) (by rw [hregs]) hlen
  simp only [hregs] at ht htq
  refine ⟨t, ?_, ht.input, ht.cfg, ht.ss, htq, ?_, ht.diags⟩
  · rw [show 4 + ps.length = 3 + ps.length + 1 by omega, steps_succ_of_next hstep, hs]
  · rw [ht.events]
    by_cases hceiling : gapNat s.fb.regs a < s.cfg.gapNoiseCeiling.toNat <;> simp [hceiling]

end Sys2Proof.Machine
end

section
/-! # A resetting gap forgets the frame (spec/41_framed_bus_ops.md R154)

Two runs of unit FB are compared that agree on what the beats to come can read: in each state code the registers that a
later beat of the frame uses, and the entries of `PL` that the frame has written. A resetting gap, or a reset, brings
any two states into this agreement, and every edge keeps it. -/

namespace Sys2Proof.Machine

/-- Two contexts of unit FB agree on what later beats read, and stand where the invariants place the byte counter. -/
structure FrameAgrees (r r' : FbRegs) (pl pl' : Memory) : Prop where
  state : r'.state = r.state
  address : r'.address = r.address
  plCount : r'.plCount = r.plCount
  frameStart : r'.frameStart = r.frameStart
  lastEnd : r'.lastEnd = r.lastEnd
  lastValid : r'.lastValid = r.lastValid
  msgType : r.state = FbCode.waitMsgType ∨ r.state = FbCode.waitDataLength ∨ r.state = FbCode.waitChecksum →
    r'.msgType = r.msgType
  dataLength : r.state = FbCode.waitDataLength ∨ r.state = FbCode.waitChecksum → r'.dataLength = r.dataLength
  plStart : r.state = FbCode.waitDataLength → r.plCount ≠ 0#8 → r'.plStart = r.plStart
  entries : ∀ i < r.plCount.toNat, pl'.read i = pl.read i
  empty : r.state = FbCode.sync ∨ r.state = FbCode.waitAddress ∨ r.state = FbCode.waitMsgType → r.plCount = 0#8
  room : r.state = FbCode.waitDataLength → r.plCount < r.dataLength
  full : r.state = FbCode.waitChecksum → r.plCount = r.dataLength

/-- Two states are the same but for the registers, the buffer and the ports of unit FB. -/
structure SameOutsideFrame (s u : State) : Prop where
  cfg : u.cfg = s.cfg
  ss : u.ss = s.ss
  input : u.input = s.input
  events : u.fb.events = s.fb.events
  diags : u.fb.diags = s.fb.diags

/-- Two states from which unit FB goes on alike. -/
structure Alike (s u : State) : Prop extends SameOutsideFrame s u where
  frame : FrameAgrees s.fb.regs u.fb.regs s.fb.pl u.fb.pl

/-- An edge of unit FB that puts out the same in both states, and leaves frames that agree. -/
theorem SameOutsideFrame.finishFb {s u : State} (h : SameOutsideFrame s u) {r r' : FbRegs} {pl pl' : Memory}
    {gap gap' ev ev' : Option Event} (dg : Option Diag) (hframe : FrameAgrees r r' pl pl') (hgap : gap' = gap)
    (hev : ev' = ev) : Alike (s.finishFb r pl gap ev dg) (u.finishFb r' pl' gap' ev' dg) where
  cfg := h.cfg
  ss := h.ss
  input := h.input
  events := by rw [State.finishFb_events, State.finishFb_events, h.events, hgap, hev]
  diags := congrArg (appendItem · dg) h.diags
  frame := hframe

theorem SameOutsideFrame.consume {s u : State} (h : SameOutsideFrame s u) : SameOutsideFrame s.consume u.consume :=
  ⟨h.cfg, h.ss, congrArg List.tail h.input, h.events, h.diags⟩

/-! ## The operations -/

section Operations

variable {s u t : State} {b : Beat}

/-- A resetting gap brings any two frames into agreement. -/
theorem frameAgrees_gapAddr {r r' : FbRegs} (b : Beat) (pl pl' : Memory) :
    FrameAgrees (offsetUpdate b (takeAddress b (frameReset r))) (offsetUpdate b (takeAddress b (frameReset r')))
      pl pl' where
  state := rfl
  address := rfl
  plCount := rfl
  frameStart := rfl
  lastEnd := rfl
  lastValid := rfl
  msgType := by simp +decide
  dataLength := by simp +decide
  plStart := by simp +decide
  entries := fun i hi => absurd hi (Nat.not_lt_zero i)
  empty := fun _ => rfl
  room := by simp +decide
  full := by simp +decide

/-- So does a reset. -/
theorem frameAgrees_reset (pl pl' : Memory) : FrameAgrees FbRegs.reset FbRegs.reset pl pl' where
  state := rfl
  address := rfl
  plCount := rfl
  frameStart := rfl
  lastEnd := rfl
  lastValid := rfl
  msgType := fun _ => rfl
  dataLength := fun _ => rfl
  plStart := fun _ _ => rfl
  entries := fun i hi => absurd hi (Nat.not_lt_zero i)
  empty := fun _ => rfl
  room := by decide
  full := by decide

/-- The gap event depends on the previous byte's end alone. -/
theorem gapEvent_congr {c : Config} {r r' : FbRegs} (h : r'.lastEnd = r.lastEnd) (b : Beat) :
    gapEvent c r' b = gapEvent c r b := by
  unfold gapEvent fbBelowCeiling fbGapValue
  rw [h]

/-- `FB.GAP_ADDR` puts out the same in both states when the previous byte ended at the same offset. -/
theorem SameOutsideFrame.gapAddr (h : SameOutsideFrame s u) (hend : u.fb.regs.lastEnd = s.fb.regs.lastEnd)
    {code code' : StateCode} (hx : exec (.fbGapAddr code b) s = .next t) :
    ∃ w, exec (.fbGapAddr code' b) u = .next w ∧ Alike t w := by
  cases hx
  exact ⟨_, rfl, h.finishFb _ (frameAgrees_gapAddr ..) (by rw [h.cfg, gapEvent_congr hend]) rfl⟩

/-- The address byte: nothing that the frame held before is read again. -/
theorem Alike.addr (h : Alike s u) (hq : s.fb.regs.state = FbCode.sync) (hx : exec (.fbAddr b) s = .next t) :
    ∃ w, exec (.fbAddr b) u = .next w ∧ Alike t w := by
  cases hx
  have hzero := h.frame.empty (.inl hq)
  refine ⟨_, rfl, h.finishFb _ ?_ rfl rfl⟩
  exact
    { state := rfl, address := rfl, plCount := h.frame.plCount, frameStart := rfl, lastEnd := rfl, lastValid := rfl
      msgType := by simp +decide
      dataLength := by simp +decide
      plStart := by simp +decide
      entries := h.frame.entries
      empty := fun _ => hzero
      room := by simp +decide
      full := by simp +decide }

/-- The message-type byte. -/
theorem Alike.msgType (h : Alike s u) (hq : s.fb.regs.state = FbCode.waitAddress)
    (hx : exec (.fbMsgType b) s = .next t) : ∃ w, exec (.fbMsgType b) u = .next w ∧ Alike t w := by
  cases hx
  have hzero := h.frame.empty (.inr (.inl hq))
  refine ⟨_, rfl, h.finishFb _ ?_ rfl rfl⟩
  exact
    { state := rfl, address := h.frame.address, plCount := h.frame.plCount, frameStart := h.frame.frameStart,
      lastEnd := rfl, lastValid := rfl
      msgType := fun _ => rfl
      dataLength := by simp +decide
      plStart := by simp +decide
      entries := h.frame.entries
      empty := fun _ => hzero
      room := by simp +decide
      full := by simp +decide }

/-- The data-length byte: the byte counter stands at zero. -/
theorem Alike.dataLen (h : Alike s u) (hq : s.fb.regs.state = FbCode.waitMsgType)
    (hx : exec (.fbDataLen b) s = .next t) : ∃ w, exec (.fbDataLen b) u = .next w ∧ Alike t w := by
  cases hx
  have hzero := h.frame.empty (.inr (.inr hq))
  have hpos : b.byte ≠ 0#8 → 0#8 < b.byte := fun hne => by bv_omega
  refine ⟨_, rfl, h.finishFb _ ?_ rfl rfl⟩
  exact
    { state := rfl, address := h.frame.address, plCount := h.frame.plCount, frameStart := h.frame.frameStart,
      lastEnd := rfl, lastValid := rfl
      msgType := fun _ => h.frame.msgType (.inl hq)
      dataLength := fun _ => rfl
      plStart := fun _ hne => absurd hzero hne
      entries := h.frame.entries
      empty := by by_cases hz : b.byte = 0#8 <;> simp +decide [hz]
      room := by by_cases hz : b.byte = 0#8 <;> simp +decide [hz, hzero, hpos]
      full := by by_cases hz : b.byte = 0#8 <;> simp +decide [hz, hzero] }

/-- A payload byte goes to the same entry in both buffers. -/
theorem Alike.payload (h : Alike s u) (hq : s.fb.regs.state = FbCode.waitDataLength)
    (hx : exec (.fbPayload b) s = .next t) : ∃ w, exec (.fbPayload b) u = .next w ∧ Alike t w := by
  cases hx
  have hf := h.frame
  have hlength := hf.dataLength (.inl hq)
  have hroom : fbRoom s.fb.regs = true := decide_eq_true (hf.room hq)
  have hroom' : fbRoom u.fb.regs = true := by rw [fbRoom, hf.plCount, hlength]; exact hroom
  have hafter : fbPlCountAfter u.fb.regs = fbPlCountAfter s.fb.regs := by
    rw [fbPlCountAfter_of_room hroom, fbPlCountAfter_of_room hroom', hf.plCount]
  have hdone : fbDone u.fb.regs = fbDone s.fb.regs := by rw [fbDone, fbDone, hafter, hlength]
  have hstart : (if u.fb.regs.plCount = 0#8 then b.ss else u.fb.regs.plStart) =
      if s.fb.regs.plCount = 0#8 then b.ss else s.fb.regs.plStart := by
    rw [hf.plCount]
    split
    · rfl
    next hne => exact hf.plStart hq hne
  have hcount := fbPlCountAfter_toNat hroom
  refine ⟨_, rfl, h.finishFb _ ?_ rfl (by rw [hdone, hstart, hlength])⟩
  simp only [hroom, hroom', if_true]
  exact
    { state := by simp only [offsetUpdate_state, hdone, hf.state]
      address := hf.address, plCount := hafter, frameStart := hf.frameStart, lastEnd := rfl, lastValid := rfl
      msgType := fun _ => hf.msgType (.inr (.inl hq))
      dataLength := fun _ => hlength
      plStart := fun _ _ => hstart
      entries := fun i hi => by
        rw [offsetUpdate_plCount, hcount] at hi
        rw [Memory.read_write, Memory.read_write, hf.plCount]
        split
        · rfl
        next hne => exact hf.entries i (by omega)
      empty := by cases hd : fbDone s.fb.regs <;> simp +decide [hq]
      room := by
        cases hd : fbDone s.fb.regs
        · intro _
          rw [fbDone_of_room hroom, decide_eq_false_iff_not] at hd
          have := (fbRoom_iff s.fb.regs).mp hroom
          refine BitVec.lt_def.mpr ?_
          show (fbPlCountAfter s.fb.regs).toNat < s.fb.regs.dataLength.toNat
          omega
        · simp +decide
      full := by
        cases hd : fbDone s.fb.regs
        · simp +decide [hq]
        · exact fun _ => beq_iff_eq.mp hd }

/-- The checksum byte: the frame event reads the entries that the frame has written. -/
theorem Alike.checksum (h : Alike s u) (hq : s.fb.regs.state = FbCode.waitChecksum)
    (hx : exec (.fbChecksum b) s = .next t) : ∃ w, exec (.fbChecksum b) u = .next w ∧ Alike t w := by
  cases hx
  have hf := h.frame
  have hlength := hf.dataLength (.inr hq)
  have hbcast : fbBcast u.fb.regs = fbBcast s.fb.regs := by rw [fbBcast, fbBcast, hf.address]
  have hpayload : u.fb.pl.readFirst s.fb.regs.dataLength.toNat = s.fb.pl.readFirst s.fb.regs.dataLength.toNat :=
    Memory.readFirst_congr (by rw [← hf.full hq]; exact hf.entries)
  refine ⟨_, rfl, h.finishFb _ ?_ rfl
    (by rw [hf.frameStart, hf.address, hf.msgType (.inr (.inr hq)), hlength, hpayload])⟩
  rw [hbcast]
  cases fbBcast s.fb.regs
  · exact
      { state := hf.state, address := hf.address, plCount := hf.plCount, frameStart := hf.frameStart,
        lastEnd := rfl, lastValid := rfl
        msgType := fun _ => hf.msgType (.inr (.inr hq))
        dataLength := fun _ => hlength
        plStart := by simp +decide [hq]
        entries := hf.entries
        empty := by simp +decide [hq]
        room := by simp +decide [hq]
        full := fun _ => hf.full hq }
  · exact
      { state := rfl, address := hf.address, plCount := rfl, frameStart := hf.frameStart, lastEnd := rfl,
        lastValid := rfl
        msgType := by simp +decide
        dataLength := by simp +decide
        plStart := by simp +decide
        entries := fun i hi => absurd hi (Nat.not_lt_zero i)
        empty := fun _ => rfl
        room := by simp +decide
        full := by simp +decide }

/-- A beat of unit FB keeps two states alike: they select the same operation. -/
theorem Alike.beat (h : Alike s u) (hx : exec (fbSelects s.cfg s.fb.regs b) s = .next t) :
    ∃ w, exec (fbSelects u.cfg u.fb.regs b) u = .next w ∧ Alike t w := by
  have hg : fbG u.cfg u.fb.regs b = fbG s.cfg s.fb.regs b := by
    unfold fbG fbGapValue
    rw [h.cfg, h.frame.lastValid, h.frame.lastEnd]
  have hsel : fbSelects u.cfg u.fb.regs b = fbSelects s.cfg s.fb.regs b := by
    simp only [fbSelects, hg, h.frame.state]
  rw [hsel]
  cases hgap : fbG s.cfg s.fb.regs b
  case true =>
    rw [fbSelects, hgap] at hx ⊢
    exact h.gapAddr h.frame.lastEnd hx
  case false =>
    rw [fbSelects, hgap] at hx ⊢
    rcases stateCode_cases s.fb.regs.state with hq | hq | hq | hq | hq | hq | hq | hq <;> rw [hq] at hx ⊢
    · exact h.addr hq hx
    · exact h.msgType hq hx
    · exact h.dataLen hq hx
    · exact h.payload hq hx
    · cases hx
    · exact h.checksum hq hx
    · cases hx
    · cases hx

end Operations

/-! ## Steps and runs -/

theorem SameOutsideFrame.nextDrive {s u : State} (h : SameOutsideFrame s u) :
    Machine.nextDrive u = Machine.nextDrive s := by
  rw [Machine.nextDrive, Machine.nextDrive, h.input]

/-- Every step keeps two states alike: an edge of unit SS reads nothing of unit FB. -/
theorem Alike.step {s u t : State} (h : Alike s u) (hstep : step s = .next t) :
    ∃ w, Machine.step u = .next w ∧ Alike t w := by
  have hd := h.nextDrive
  rcases step_edge hstep with ⟨hu, -, hcfg, hfb⟩ | ⟨-, hedge, -, -⟩
  · have hsame : u = { s with fb := u.fb, input := s.input } := by
      rw [← h.cfg, ← h.ss, ← h.input]
    have hinput := (stepKeepsTheConfiguration s t hstep).2
    refine ⟨{ t with fb := u.fb, input := s.input.tail }, ?_, ⟨⟨rfl, rfl, ?_, ?_, ?_⟩, ?_⟩⟩
    · rw [hsame]
      exact step_ss_frame hu hstep u.fb rfl
    · exact hinput.symm
    · rw [hfb]; exact h.events
    · rw [hfb]; exact h.diags
    · rw [hfb]; exact h.frame
  · cases hedge with
    | reset v b hd' ht =>
      subst ht
      exact ⟨_, step_of_fbResetCycle (hd.trans hd'),
        h.consume.finishFb _ (frameAgrees_reset ..) rfl rfl⟩
    | idle b hd' ht =>
      subst ht
      exact ⟨_, step_of_fbIdleCycle (hd.trans hd'), h.consume.finishFb _ h.frame rfl rfl⟩
    | beat b hd' ht =>
      have hconsume : Alike s.consume u.consume := ⟨h.consume, h.frame⟩
      obtain ⟨w, hw, hwt⟩ := hconsume.beat ht
      exact ⟨w, (step_of_fbBeat (hd.trans hd')).trans hw, hwt⟩

/-- Runs of the same length from states that are alike end in states that are alike. -/
theorem Alike.steps (n : Nat) {s u t : State} (h : Alike s u) (hs : steps n s = .next t) :
    ∃ w, Machine.steps n u = .next w ∧ Alike t w := by
  induction n generalizing s u with
  | zero => cases hs; exact ⟨u, rfl, h⟩
  | succ n ih =>
    obtain ⟨s', hstep, hrest⟩ := steps_succ_eq_next hs
    obtain ⟨u', hustep, halike⟩ := h.step hstep
    rw [steps_succ_of_next hustep]
    exact ih halike hrest

/-- A fresh unit FB differs in its registers and its buffer alone. -/
theorem sameOutsideFrame_freshFb (s : State) (pl : Memory) : SameOutsideFrame s (s.freshFb pl) :=
  ⟨rfl, rfl, rfl, rfl, rfl⟩

/-- The beat after a resetting gap leaves a state and its fresh counterpart alike. -/
theorem step_freshFb_alike {s t : State} {b : Beat} (hd : nextBeatIs s .fb b) (hg : fbG s.cfg s.fb.regs b = true)
    (pl : Memory) (h : step s = .next t) : ∃ w, step (s.freshFb pl) = .next w ∧ Alike t w := by
  have hg' : fbG (s.freshFb pl).cfg (s.freshFb pl).fb.regs b = true := hg
  have hsel : fbSelects s.cfg s.fb.regs b = .fbGapAddr s.fb.regs.state b := by rw [fbSelects, hg, if_pos rfl]
  have hx := (step_of_fbBeat hd).symm.trans h
  rw [hsel] at hx
  rw [step_of_fbBeat (s := s.freshFb pl) hd, fbSelects, hg', if_pos rfl]
  exact (sameOutsideFrame_freshFb s pl).consume.gapAddr rfl hx

/-- Settles O51: before the beat the records are the same; the beat leaves the two states alike
(`step_freshFb_alike`), and they stay so (`Alike.steps`). -/
theorem resettingGapForgetsTheFrame : Obligations.ResettingGapForgetsTheFrame := by
  unfold Obligations.ResettingGapForgetsTheFrame
  intro s t b pl n hd hg h
  cases n with
  | zero => cases h; exact ⟨_, rfl, rfl, rfl, rfl⟩
  | succ n =>
    obtain ⟨s', hstep, hrest⟩ := steps_succ_eq_next h
    obtain ⟨u', hustep, halike⟩ := step_freshFb_alike hd hg pl hstep
    obtain ⟨w, hw, hwt⟩ := halike.steps n hrest
    exact ⟨w, (steps_succ_of_next hustep).trans hw, hwt.ss, hwt.events, hwt.diags⟩

end Sys2Proof.Machine
end
